-- ==== Sys2Proof/Word.lean ====
section
/-! DEFINITION. The word types of the CORE: every register, memory byte and address is 8 bits wide (R8, R13, R17, R31). -/

namespace Sys2Proof

/-- A byte: register contents, memory bytes, addresses, operand bytes (R8: unsigned, 0 to 255). -/
abbrev Byte := BitVec 8

/-- The number of a general register, 0 to 7 (R13). -/
abbrev RegIndex := Fin 8

end Sys2Proof
end

