-- ==== Sys2Proof/Config.lean ====
section
/-! DEFINITION. The parameters of the CORE with the value this hardware takes (R7, R29), and the byte an unlisted
address reads as. No instruction of this hardware needs a free value. -/

namespace Sys2Proof.Config

/-- The memory has 256 cells, addresses 0 to 255 (R7, R31). -/
abbrev memorySize : Nat := 256

/-- Register 7 is the stack pointer (R14). -/
abbrev spIndex : RegIndex := 7

/-- SP is initialized to address 0xF4 (R14, R29). -/
def spReset : Byte := 0xF4

/-- PC starts at 0 (R17, R29). -/
def pcReset : Byte := 0x00

/-- FL is 0x00 after reset: no flag set (R29, the spec's decision D7). -/
def flReset : Byte := 0x00

/-- R0 to R6 are 0x00 after reset (R29, the spec's decision D7), SP is 0xF4. -/
def registersReset : Vector Byte 8 := #v[0, 0, 0, 0, 0, 0, 0, spReset]

/-- IR, OPA and OPB hold an unspecified byte after reset (R29). DESIGN CHOICE (unsafe): `State.reset` takes zero,
log entry 1; `State.resetCore` takes the three bytes as arguments. -/
def latchReset : Byte := 0x00

/-- What an address that memory does not list reads as. The spec leaves the bytes the loader did not write open
(`MEM_INIT`, R135, D26). DESIGN CHOICE (unsafe): zero, log entry 2. A state can list any byte at any address, so a
statement about every state covers every `MEM_INIT`. -/
def unlistedByte : Byte := 0x00

end Sys2Proof.Config
end

