-- ==== Sys2Proof/Machine/State.lean ====
section
/-! DEFINITION. The state of the CORE (R13 to R25) and of its environment (memory, HB, output: R30), plain data, the
reasons a step can stop, and the state right after reset (R29). -/

namespace Sys2Proof.Machine

/-- Memory as (address, byte) pairs. Canonical form: `Memory.wf`. An address not listed reads as `Config.unlistedByte`. -/
abbrev Memory := List Host.Cell

/-- From address `low` on: addresses rise strictly and are below 256, and no entry equals an unlisted byte. -/
def Memory.wfFrom (low : Nat) : Memory → Bool
  | [] => true
  | (a, v) :: rest =>
    decide (low ≤ a) && decide (a < Config.memorySize) && decide (v ≠ Config.unlistedByte) && Memory.wfFrom (a + 1) rest

/-- The canonical form of memory, so that equal memories are equal lists. -/
def Memory.wf (m : Memory) : Bool := m.wfFrom 0

/-- The run state (R25, R63). HALTED and FAULT are terminal. -/
inductive RunState where
  | running
  | halted
  | fault
  deriving DecidableEq, Repr

/-- The fault causes the CORE raises (R118). -/
inductive Cause where
  | unknownOpcode
  | stackOverflow
  | divisionByZero
  | illegalRegister
  deriving DecidableEq, Repr

/-- The fault record the CORE holds in FAULT (R25, R124). -/
structure FaultRecord where
  /-- Why the CORE stopped (R118). -/
  cause : Cause
  /-- The address of the faulting instruction's opcode byte (R124). -/
  fpc   : Byte
  deriving DecidableEq, Repr

/-- One event of the output stream (R110). -/
inductive OutEvent where
  /-- `OutDec(v)`: the decimal representation of v. -/
  | dec (v : Byte)
  /-- `OutChar(b)`: the single character with code b. -/
  | char (b : Byte)
  deriving DecidableEq, Repr

/-- Everything the spec gives the machine: the CORE's state (R29) and its environment (R30). -/
structure State where
  /-- The general registers; register 7 is SP (R13, R14). -/
  x      : Vector Byte 8
  /-- The program counter (R17). -/
  pc     : Byte
  /-- The flags register FL (R19): E bit 0, G bit 1, L bit 2. -/
  fl     : Byte
  /-- The instruction register IR (R23). -/
  ir     : Byte
  /-- The first operand latch OPA (R24). -/
  opa    : Byte
  /-- The second operand latch OPB (R24). -/
  opb    : Byte
  /-- The run state (R25). -/
  run    : RunState
  /-- cause and fpc, when there is a fault record (R25). -/
  record : Option FaultRecord
  /-- The 256-byte memory (R31, R32). -/
  mem    : Memory
  /-- The heap boundary HB, an input, 0 to 256 (R27). -/
  hb     : Fin 257
  /-- The output stream, oldest event first (R110). -/
  output : List OutEvent
  deriving DecidableEq, Repr

/-- Why a step gives no next state. Raised by `step` alone, never by an instruction: a fault of the CORE (R118) is a next
state in which `run` is FAULT. -/
inductive Fault where
  /-- `step`, when the CORE is HALTED: no step follows (R63). Safe: the machine performs no step there. -/
  | halted
  /-- `step`, when the CORE is in FAULT: no step follows (R63, R125). Safe: the machine performs no step there. -/
  | faulted
  deriving DecidableEq, Repr

/-- Why an instruction has no meaning. -/
inductive Refusal where
  /-- Raised by `exec`'s arm of an instruction that has no meaning yet; no arm does. Safe. -/
  | notModelled (mnemonic : String)
  deriving DecidableEq, Repr

/-- The machine right after reset (R29, R132), before an image is loaded: the environment is an empty image (N = 0, so
HB = 0, R135), memory with nothing listed and an empty output stream (log entries 1, 2, 3). -/
def State.reset : State where
  x      := Config.registersReset
  pc     := Config.pcReset
  fl     := Config.flReset
  ir     := Config.latchReset
  opa    := Config.latchReset
  opb    := Config.latchReset
  run    := .running
  record := none
  mem    := []
  hb     := 0
  output := []

end Sys2Proof.Machine
end

