-- ==== Sys2Proof/Machine/Ops.lean ====
section
/-! DEFINITION. The operations over registers, memory, output and the run state that every instruction shares, and fault
entry (R124). There is no return from a fault (R125): IRET is a no-op (R116). -/

namespace Sys2Proof.Machine

/-- The outcome of an instruction or of a step. -/
abbrev Result := Host.Outcome State Fault Refusal

/-- `wrap8(v) = v mod 256` with the non-negative modulus (R8). -/
def wrap8 (v : Int) : Byte := BitVec.ofInt 8 v

/-- The read `x[r]` (R9). -/
def State.readReg (s : State) (r : RegIndex) : Byte := s.x[r.val]

/-- The write `x[r] <- v` (R9, R15). No register is hardwired (R13). -/
def State.writeReg (s : State) (r : RegIndex) (v : Byte) : State := { s with x := s.x.set r.val v }

/-- SP is `x[7]` (R14). -/
def State.sp (s : State) : Byte := s.readReg Config.spIndex

/-- The write `x[7] <- v`. -/
def State.setSp (s : State) (v : Byte) : State := s.writeReg Config.spIndex v

/-- The write `pc <- target` (R9). -/
def State.setPc (s : State) (target : Byte) : State := { s with pc := target }

/-- The byte a memory holds at an address. -/
def Memory.read : Memory → Nat → Byte
  | [], _ => Config.unlistedByte
  | (b, w) :: rest, a => if b = a then w else Memory.read rest a

/-- A memory without any entry for the address. -/
def Memory.erase (m : Memory) (a : Nat) : Memory := m.filter (fun c => c.1 ≠ a)

/-- Enters a pair before the first entry with a higher address. -/
def Memory.insert : Memory → Nat → Byte → Memory
  | [], a, v => [(a, v)]
  | (b, w) :: rest, a, v => if a < b then (a, v) :: (b, w) :: rest else (b, w) :: Memory.insert rest a v

/-- Sets the byte at an address; the canonical form is kept (writing the unlisted byte removes the entry). -/
def Memory.write (m : Memory) (a : Nat) (v : Byte) : Memory :=
  if v = Config.unlistedByte then m.erase a else (m.erase a).insert a v

/-- `MemRead(a, 1)` (R10, R32): every address 0 to 255 is readable. -/
def State.memRead (s : State) (a : Byte) : Byte := s.mem.read a.toNat

/-- `MemWrite(a, 1, v)` (R10, R32): every address 0 to 255 is writable, with no protection (R40). -/
def State.memWrite (s : State) (a v : Byte) : State := { s with mem := s.mem.write a.toNat v }

/-- Writes bytes at an address and the addresses after it, modulo 256 (R36). -/
def State.storeBytes (s : State) (a : Byte) : List Byte → State
  | [] => s
  | v :: rest => State.storeBytes (s.memWrite a v) (a + 1) rest

/-- `Output(e)`: appends the event; the channel always accepts (R110). -/
def State.emit (s : State) (e : OutEvent) : State := { s with output := s.output ++ [e] }

/-- Fault entry, `raise c` (R124): the one operation that takes every fault. `fpc` is the address of the instruction's
opcode byte. What the step did before the raise stands; nothing after it happens. -/
def State.raise (s : State) (c : Cause) (fpc : Byte) : State :=
  { s with run := .fault, record := some ⟨c, fpc⟩ }

/-- The stack-overflow check of PUSH and CALL (R100): the decremented SP as an unwrapped integer must be above HB. Gives
the decremented SP, or none where the push would overflow. -/
def State.stackCheck (s : State) : Option Byte :=
  let nsp : Int := (s.sp.toNat : Int) - 1
  if nsp ≤ (s.hb.val : Int) then none else some (wrap8 nsp)

/-- The code of a fault cause (R118). -/
def Cause.code : Cause → Nat
  | .unknownOpcode => 1
  | .stackOverflow => 2
  | .divisionByZero => 3
  | .illegalRegister => 4

/-- The ASCII code of a decimal digit. -/
def digitByte (d : Nat) : Byte := BitVec.ofNat 8 (0x30 + d)

/-- The decimal representation of a byte: ASCII digits, most significant first, no leading zeros (R110). -/
def decimalBytes (v : Byte) : List Byte :=
  let n := v.toNat
  if n < 10 then [digitByte n]
  else if n < 100 then [digitByte (n / 10), digitByte (n % 10)]
  else [digitByte (n / 100), digitByte (n / 10 % 10), digitByte (n % 10)]

/-- The characters an event appends to the stream, as their codes (R110). A byte 0x80 to 0xFF and a control code are
passed on unchanged (R112). -/
def OutEvent.bytes : OutEvent → List Byte
  | .dec v => decimalBytes v
  | .char b => [b]

/-- The whole output stream as character codes, in the order they were printed (R110). -/
def State.outputBytes (s : State) : List Byte := s.output.flatMap OutEvent.bytes

end Sys2Proof.Machine
end

