-- ==== Sys2Proof/Machine/Flags.lean ====
section
/-! DEFINITION. The flags register FL: its bits (R19), the compare that alone writes it (R20, R88) and the branch
conditions that alone read it (R92). -/

namespace Sys2Proof.Machine

/-- FL.E, bit 0 (R19). -/
def flagE (fl : Byte) : Bool := fl.getLsbD 0

/-- FL.G, bit 1 (R19). -/
def flagG (fl : Byte) : Bool := fl.getLsbD 1

/-- FL.L, bit 2 (R19). -/
def flagL (fl : Byte) : Bool := fl.getLsbD 2

/-- FL after CMP of the values a and b (R88): every bit cleared, then exactly one of E, G, L set, comparing unsigned. -/
def compareFlags (a b : Byte) : Byte :=
  let e : Byte := if a.toNat = b.toNat then 0x01 else 0x00
  let g : Byte := if b.toNat < a.toNat then 0x02 else 0x00
  let l : Byte := if a.toNat < b.toNat then 0x04 else 0x00
  0x00 ||| e ||| g ||| l

/-- JEQ is taken when FL.E = 1 (R92). -/
def takenEq (fl : Byte) : Bool := flagE fl

/-- JNE is taken when FL.E = 0 (R92). -/
def takenNe (fl : Byte) : Bool := !flagE fl

/-- JGT is taken when FL.G = 1 (R92). -/
def takenGt (fl : Byte) : Bool := flagG fl

/-- JGE is taken when FL.G = 1 or FL.E = 1 (R92). -/
def takenGe (fl : Byte) : Bool := flagG fl || flagE fl

/-- JLT is taken when FL.L = 1 (R92). -/
def takenLt (fl : Byte) : Bool := flagL fl

/-- JLE is taken when FL.L = 1 or FL.E = 1 (R92). -/
def takenLe (fl : Byte) : Bool := flagL fl || flagE fl

end Sys2Proof.Machine
end

