-- ==== Sys2Proof/Machine/Operands.lean ====
section
/-! DEFINITION. What the loop does between decode and the handler: operand fetch into the latches (R68), pc
auto-advance (R69), the register-operand check (R54, R73), for each operand form (R51). -/

namespace Sys2Proof.Machine

/-- The address after the instruction at pc, `wrap8(pc + n + 1)` with n the operand bytes fetched (R18, R69): also the
fall-through of a branch (R94) and the return address of CALL (R102). -/
def State.nextPc (s : State) (operands : List Byte) : Byte := wrap8 ((s.pc.toNat + operands.length + 1 : Nat) : Int)

/-- Operand fetch (R68): OPA takes the first operand byte, OPB the second; a latch the step does not refresh keeps the
value of an earlier step (R24). -/
def State.latch (s : State) : List Byte → State
  | [] => s
  | [a] => { s with opa := a }
  | a :: b :: _ => { s with opa := a, opb := b }

/-- Operand fetch and pc auto-advance, for a handler with manual-PC flag 0 (R68, R69). -/
def State.enter (s : State) (operands : List Byte) : State :=
  (s.latch operands).setPc (s.nextPc operands)

/-- `reg(k)` (R54): the register a byte names, none for 8 to 255. -/
def registerOf (k : Byte) : Option RegIndex :=
  if h : k.toNat < 8 then some ⟨k.toNat, h⟩ else none

/-- Formats F1R and F2RI (R51): OPA is checked as a register (R73) before the handler runs. -/
def withRa (fpc : Byte) (s : State) (handler : RegIndex → Result) : Result :=
  match registerOf s.opa with
  | none => .next (s.raise .illegalRegister fpc)
  | some ra => handler ra

/-- Format F2RR (R51): OPA, then OPB, is checked as a register (R73) before the handler runs. -/
def withRaRb (fpc : Byte) (s : State) (handler : RegIndex → RegIndex → Result) : Result :=
  withRa fpc s fun ra =>
    match registerOf s.opb with
    | none => .next (s.raise .illegalRegister fpc)
    | some rb => handler ra rb

end Sys2Proof.Machine
end

