-- ==== Sys2Proof/Machine/Alu.lean ====
section
/-! DEFINITION. The ALU instructions (R74 to R90). Every one has manual-PC flag 0. Operands are unsigned, results are
computed exactly and then masked to 8 bits (R74, R89); the sources are read before the destination is written. -/

namespace Sys2Proof.Machine

/-- ADD, modulo 256 (R75). -/
def addBytes (a b : Byte) : Byte := wrap8 ((a.toNat : Int) + b.toNat)

/-- SUB, a borrow wraps (R76). -/
def subBytes (a b : Byte) : Byte := wrap8 ((a.toNat : Int) - b.toNat)

/-- MUL, the low 8 bits of the product (R77). -/
def mulBytes (a b : Byte) : Byte := wrap8 ((a.toNat : Int) * b.toNat)

/-- The unsigned quotient, rounded down (R78). -/
def divBytes (a b : Byte) : Byte := wrap8 ((a.toNat / b.toNat : Nat) : Int)

/-- The unsigned remainder `a - b * floor(a / b)` (R79). -/
def modBytes (a b : Byte) : Byte := wrap8 ((a.toNat : Int) - b.toNat * (a.toNat / b.toNat : Nat))

/-- AND, bit by bit (R80). -/
def andBytes (a b : Byte) : Byte := a &&& b

/-- OR, bit by bit (R81). -/
def orBytes (a b : Byte) : Byte := a ||| b

/-- XOR, bit by bit (R82). -/
def xorBytes (a b : Byte) : Byte := a ^^^ b

/-- NOT, every bit inverted: 255 - a (R83). -/
def notByte (a : Byte) : Byte := wrap8 (255 - (a.toNat : Int))

/-- SHL (R84): an amount of 8 or more gives 0. -/
def shlBytes (a amount : Byte) : Byte :=
  if 8 ≤ amount.toNat then 0 else wrap8 ((a.toNat * 2 ^ amount.toNat : Nat) : Int)

/-- SHR, logical (R85): an amount of 8 or more gives 0, since a is below 2 ^ 8. -/
def shrBytes (a amount : Byte) : Byte :=
  if 8 ≤ amount.toNat then 0 else wrap8 ((a.toNat / 2 ^ amount.toNat : Nat) : Int)

/-- INC, modulo 256 (R86). -/
def incByte (a : Byte) : Byte := wrap8 ((a.toNat : Int) + 1)

/-- DEC, modulo 256 (R87). -/
def decByte (a : Byte) : Byte := wrap8 ((a.toNat : Int) - 1)

/-- A binary ALU instruction: `x[ra] <- f(x[ra], x[rb])` (R74), format F2RR. -/
def aluBinary (f : Byte → Byte → Byte) (operands : List Byte) (s : State) : Result :=
  let s1 := s.enter operands
  withRaRb s.pc s1 fun ra rb => .next (s1.writeReg ra (f (s1.readReg ra) (s1.readReg rb)))

/-- DIV and MOD: as `aluBinary`, but a zero divisor raises DivisionByZero before the destination is written (R122). -/
def aluDivide (f : Byte → Byte → Byte) (operands : List Byte) (s : State) : Result :=
  let s1 := s.enter operands
  withRaRb s.pc s1 fun ra rb =>
    if s1.readReg rb = 0 then .next (s1.raise .divisionByZero s.pc)
    else .next (s1.writeReg ra (f (s1.readReg ra) (s1.readReg rb)))

/-- A unary ALU instruction: `x[ra] <- f(x[ra])` (R74), format F1R. -/
def aluUnary (f : Byte → Byte) (operands : List Byte) (s : State) : Result :=
  let s1 := s.enter operands
  withRa s.pc s1 fun ra => .next (s1.writeReg ra (f (s1.readReg ra)))

/-- ADD (R75). -/
def execAdd (operands : List Byte) (s : State) : Result := aluBinary addBytes operands s

/-- SUB (R76). -/
def execSub (operands : List Byte) (s : State) : Result := aluBinary subBytes operands s

/-- MUL (R77). -/
def execMul (operands : List Byte) (s : State) : Result := aluBinary mulBytes operands s

/-- DIV (R78). -/
def execDiv (operands : List Byte) (s : State) : Result := aluDivide divBytes operands s

/-- MOD (R79). -/
def execMod (operands : List Byte) (s : State) : Result := aluDivide modBytes operands s

/-- INC (R86). -/
def execInc (operands : List Byte) (s : State) : Result := aluUnary incByte operands s

/-- DEC (R87). -/
def execDec (operands : List Byte) (s : State) : Result := aluUnary decByte operands s

/-- CMP (R88): writes FL, no register. -/
def execCmp (operands : List Byte) (s : State) : Result :=
  let s1 := s.enter operands
  withRaRb s.pc s1 fun ra rb => .next { s1 with fl := compareFlags (s1.readReg ra) (s1.readReg rb) }

/-- AND (R80). -/
def execAnd (operands : List Byte) (s : State) : Result := aluBinary andBytes operands s

/-- NOT (R83). -/
def execNot (operands : List Byte) (s : State) : Result := aluUnary notByte operands s

/-- OR (R81). -/
def execOr (operands : List Byte) (s : State) : Result := aluBinary orBytes operands s

/-- XOR (R82). -/
def execXor (operands : List Byte) (s : State) : Result := aluBinary xorBytes operands s

/-- SHL (R84). -/
def execShl (operands : List Byte) (s : State) : Result := aluBinary shlBytes operands s

/-- SHR (R85). -/
def execShr (operands : List Byte) (s : State) : Result := aluBinary shrBytes operands s

end Sys2Proof.Machine
end

