-- ==== Sys2Proof/Machine/Control.lean ====
section
/-! DEFINITION. The control-flow and stack instructions (R91 to R106). Jumps, branches, CALL and RET have manual-PC flag
1: the loop has not advanced pc, and the handler sets it (R70). PUSH and POP have manual-PC flag 0. -/

namespace Sys2Proof.Machine

/-- A jump to the value of the operand register when the condition on FL holds, else past the instruction (R91, R94). -/
def jumpWhen (taken : Byte → Bool) (operands : List Byte) (s : State) : Result :=
  let s1 := s.latch operands
  withRa s.pc s1 fun ra =>
    .next (s1.setPc (if taken s1.fl then s1.readReg ra else s.nextPc operands))

/-- JMP (R93). -/
def execJmp (operands : List Byte) (s : State) : Result := jumpWhen (fun _ => true) operands s

/-- JEQ (R94). -/
def execJeq (operands : List Byte) (s : State) : Result := jumpWhen takenEq operands s

/-- JNE (R95). -/
def execJne (operands : List Byte) (s : State) : Result := jumpWhen takenNe operands s

/-- JGT (R96). -/
def execJgt (operands : List Byte) (s : State) : Result := jumpWhen takenGt operands s

/-- JGE (R97). -/
def execJge (operands : List Byte) (s : State) : Result := jumpWhen takenGe operands s

/-- JLT (R98). -/
def execJlt (operands : List Byte) (s : State) : Result := jumpWhen takenLt operands s

/-- JLE (R99). -/
def execJle (operands : List Byte) (s : State) : Result := jumpWhen takenLe operands s

/-- CALL (R102): the target is read before SP changes; the return address is that of the instruction after CALL; on
StackOverflow nothing is written and pc is unchanged. -/
def execCall (operands : List Byte) (s : State) : Result :=
  let s1 := s.latch operands
  withRa s.pc s1 fun ra =>
    let target := s1.readReg ra
    let ret := s.nextPc operands
    match s1.stackCheck with
    | none => .next (s1.raise .stackOverflow s.pc)
    | some nsp =>
      let s2 := s1.setSp nsp
      .next ((s2.memWrite s2.sp ret).setPc target)

/-- RET (R103): pops the byte at SP into pc; SP is incremented modulo 256 with no underflow check (R101). -/
def execRet (operands : List Byte) (s : State) : Result :=
  let s1 := s.latch operands
  let v := s1.memRead s1.sp
  .next ((s1.setSp (wrap8 ((s1.sp.toNat : Int) + 1))).setPc v)

/-- PUSH (R104): the source register is read after SP is decremented, so PUSH R7 stores the decremented SP. -/
def execPush (operands : List Byte) (s : State) : Result :=
  let s1 := s.enter operands
  withRa s.pc s1 fun ra =>
    match s1.stackCheck with
    | none => .next (s1.raise .stackOverflow s.pc)
    | some nsp =>
      let s2 := s1.setSp nsp
      .next (s2.memWrite s2.sp (s2.readReg ra))

/-- POP (R105): the register is written before SP is incremented, so POP R7 leaves SP one above the popped byte. -/
def execPop (operands : List Byte) (s : State) : Result :=
  let s1 := s.enter operands
  withRa s.pc s1 fun ra =>
    let s2 := s1.writeReg ra (s1.memRead s1.sp)
    .next (s2.setSp (wrap8 ((s2.sp.toNat : Int) + 1)))

end Sys2Proof.Machine
end

