-- ==== Sys2Proof/Machine/Data.lean ====
section
/-! DEFINITION. Load, store and output instructions (R107 to R112). Every one has manual-PC flag 0. -/

namespace Sys2Proof.Machine

/-- LDI (R107): the immediate is OPB, unchanged and unchecked (R55). -/
def execLdi (operands : List Byte) (s : State) : Result :=
  let s1 := s.enter operands
  withRa s.pc s1 fun ra => .next (s1.writeReg ra s1.opb)

/-- LD (R108): `x[ra] <- MemRead(x[rb], 1)`. -/
def execLd (operands : List Byte) (s : State) : Result :=
  let s1 := s.enter operands
  withRaRb s.pc s1 fun ra rb => .next (s1.writeReg ra (s1.memRead (s1.readReg rb)))

/-- ST (R109): `MemWrite(x[ra], 1, x[rb])`. -/
def execSt (operands : List Byte) (s : State) : Result :=
  let s1 := s.enter operands
  withRaRb s.pc s1 fun ra rb => .next (s1.memWrite (s1.readReg ra) (s1.readReg rb))

/-- PRN (R111): appends the decimal value of the register. -/
def execPrn (operands : List Byte) (s : State) : Result :=
  let s1 := s.enter operands
  withRa s.pc s1 fun ra => .next (s1.emit (.dec (s1.readReg ra)))

/-- PRA (R112): appends the character whose code is the byte at the address in the register. -/
def execPra (operands : List Byte) (s : State) : Result :=
  let s1 := s.enter operands
  withRa s.pc s1 fun ra => .next (s1.emit (.char (s1.memRead (s1.readReg ra))))

end Sys2Proof.Machine
end

