-- ==== Sys2Proof/Machine/System.lean ====
section
/-! DEFINITION. The system instructions (R113 to R117). HLT and NOP have manual-PC flag 0; INT and IRET have manual-PC
flag 1 and advance pc themselves. -/

namespace Sys2Proof.Machine

/-- HLT (R113): `run <- HALTED`, with pc already past the instruction. -/
def execHlt (operands : List Byte) (s : State) : Result := .next { s.enter operands with run := .halted }

/-- NOP (R114): the loop's operand fetch and auto-advance are the only effect. -/
def execNop (operands : List Byte) (s : State) : Result := .next (s.enter operands)

/-- INT (R115): a no-op that advances pc; the operand byte is fetched and not checked. -/
def execInt (operands : List Byte) (s : State) : Result := .next ((s.latch operands).setPc (s.nextPc operands))

/-- IRET (R116): a no-op that advances pc. -/
def execIret (operands : List Byte) (s : State) : Result := .next ((s.latch operands).setPc (s.nextPc operands))

end Sys2Proof.Machine
end

