-- ==== Sys2Proof/Syntax.lean ====
section
/-! DEFINITION. The instructions: one constructor per row of spec/opcode_table.json.

An instruction is "a transient view over the fetched opcode byte plus 0, 1, or 2 operand bytes" (R47). Each constructor
carries the operand bytes that follow its opcode byte, in address order. How many there are is the count field of the
opcode byte: the canonical encoding has the count of the row's format (R51), an alias encoding another count of 0, 1 or 2
(R56). The handler is the same for each count (R52): it reads the latches OPA and OPB, which these bytes refresh. -/

namespace Sys2Proof

inductive Instr where
  /-- NOP (R114, format F0): no operation. -/
  | nop (operands : List Byte)
  /-- HLT (R113, format F0): halt. -/
  | hlt (operands : List Byte)
  /-- LDI (R107, format F2RI): load immediate. -/
  | ldi (operands : List Byte)
  /-- LD (R108, format F2RR): load from the address in x[rb]. -/
  | ld (operands : List Byte)
  /-- ST (R109, format F2RR): store x[rb] at the address in x[ra]. -/
  | st (operands : List Byte)
  /-- PUSH (R104, format F1R): push x[ra]. -/
  | push (operands : List Byte)
  /-- POP (R105, format F1R): pop into x[ra]. -/
  | pop (operands : List Byte)
  /-- PRN (R111, format F1R): print x[ra] in decimal. -/
  | prn (operands : List Byte)
  /-- PRA (R112, format F1R): print the character at the address in x[ra]. -/
  | pra (operands : List Byte)
  /-- CALL (R102, format F1R): call subroutine at x[ra]. -/
  | call (operands : List Byte)
  /-- RET (R103, format F0): return from subroutine. -/
  | ret (operands : List Byte)
  /-- INT (R115, format F1X): software interrupt, stubbed. -/
  | int (operands : List Byte)
  /-- IRET (R116, format F0): return from interrupt, stubbed. -/
  | iret (operands : List Byte)
  /-- JMP (R93, format F1R): jump to x[ra]. -/
  | jmp (operands : List Byte)
  /-- JEQ (R94, format F1R): jump if equal. -/
  | jeq (operands : List Byte)
  /-- JNE (R95, format F1R): jump if not equal. -/
  | jne (operands : List Byte)
  /-- JGT (R96, format F1R): jump if greater. -/
  | jgt (operands : List Byte)
  /-- JLT (R98, format F1R): jump if less. -/
  | jlt (operands : List Byte)
  /-- JLE (R99, format F1R): jump if less or equal. -/
  | jle (operands : List Byte)
  /-- JGE (R97, format F1R): jump if greater or equal. -/
  | jge (operands : List Byte)
  /-- ADD (R75, format F2RR): x[ra] + x[rb]. -/
  | add (operands : List Byte)
  /-- SUB (R76, format F2RR): x[ra] - x[rb]. -/
  | sub (operands : List Byte)
  /-- MUL (R77, format F2RR): x[ra] * x[rb]. -/
  | mul (operands : List Byte)
  /-- DIV (R78, format F2RR): unsigned quotient. -/
  | div (operands : List Byte)
  /-- MOD (R79, format F2RR): unsigned remainder. -/
  | mod (operands : List Byte)
  /-- INC (R86, format F1R): increment. -/
  | inc (operands : List Byte)
  /-- DEC (R87, format F1R): decrement. -/
  | dec (operands : List Byte)
  /-- CMP (R88, format F2RR): unsigned compare into FL. -/
  | cmp (operands : List Byte)
  /-- AND (R80, format F2RR): bitwise and. -/
  | and (operands : List Byte)
  /-- NOT (R83, format F1R): bitwise complement. -/
  | not (operands : List Byte)
  /-- OR (R81, format F2RR): bitwise inclusive or. -/
  | or (operands : List Byte)
  /-- XOR (R82, format F2RR): bitwise exclusive or. -/
  | xor (operands : List Byte)
  /-- SHL (R84, format F2RR): logical shift left by x[rb]. -/
  | shl (operands : List Byte)
  /-- SHR (R85, format F2RR): logical shift right by x[rb]. -/
  | shr (operands : List Byte)
  deriving DecidableEq, Repr

/-- The operand bytes of an instruction, in address order (R34). -/
def Instr.operands : Instr → List Byte
  | .nop ops | .hlt ops | .ldi ops | .ld ops | .st ops | .push ops
  | .pop ops | .prn ops | .pra ops | .call ops | .ret ops | .int ops
  | .iret ops | .jmp ops | .jeq ops | .jne ops | .jgt ops | .jlt ops
  | .jle ops | .jge ops | .add ops | .sub ops | .mul ops | .div ops
  | .mod ops | .inc ops | .dec ops | .cmp ops | .and ops | .not ops
  | .or ops | .xor ops | .shl ops | .shr ops => ops

end Sys2Proof
end

