-- ==== Sys2Proof/Machine/Dispatch.lean ====
section
/-! DEFINITION. The handler call (R70): one arm per instruction. -/

namespace Sys2Proof.Machine

def exec (i : Instr) (s : State) : Host.Outcome State Fault Refusal :=
  match i with
  | .nop ops => Sys2Proof.Machine.execNop ops s
  | .hlt ops => Sys2Proof.Machine.execHlt ops s
  | .ldi ops => Sys2Proof.Machine.execLdi ops s
  | .ld ops => Sys2Proof.Machine.execLd ops s
  | .st ops => Sys2Proof.Machine.execSt ops s
  | .push ops => Sys2Proof.Machine.execPush ops s
  | .pop ops => Sys2Proof.Machine.execPop ops s
  | .prn ops => Sys2Proof.Machine.execPrn ops s
  | .pra ops => Sys2Proof.Machine.execPra ops s
  | .call ops => Sys2Proof.Machine.execCall ops s
  | .ret ops => Sys2Proof.Machine.execRet ops s
  | .int ops => Sys2Proof.Machine.execInt ops s
  | .iret ops => Sys2Proof.Machine.execIret ops s
  | .jmp ops => Sys2Proof.Machine.execJmp ops s
  | .jeq ops => Sys2Proof.Machine.execJeq ops s
  | .jne ops => Sys2Proof.Machine.execJne ops s
  | .jgt ops => Sys2Proof.Machine.execJgt ops s
  | .jlt ops => Sys2Proof.Machine.execJlt ops s
  | .jle ops => Sys2Proof.Machine.execJle ops s
  | .jge ops => Sys2Proof.Machine.execJge ops s
  | .add ops => Sys2Proof.Machine.execAdd ops s
  | .sub ops => Sys2Proof.Machine.execSub ops s
  | .mul ops => Sys2Proof.Machine.execMul ops s
  | .div ops => Sys2Proof.Machine.execDiv ops s
  | .mod ops => Sys2Proof.Machine.execMod ops s
  | .inc ops => Sys2Proof.Machine.execInc ops s
  | .dec ops => Sys2Proof.Machine.execDec ops s
  | .cmp ops => Sys2Proof.Machine.execCmp ops s
  | .and ops => Sys2Proof.Machine.execAnd ops s
  | .not ops => Sys2Proof.Machine.execNot ops s
  | .or ops => Sys2Proof.Machine.execOr ops s
  | .xor ops => Sys2Proof.Machine.execXor ops s
  | .shl ops => Sys2Proof.Machine.execShl ops s
  | .shr ops => Sys2Proof.Machine.execShr ops s

end Sys2Proof.Machine
end

