-- ==== Sys2Proof/WellFormed.lean ====
section
/-! DEFINITION. Which instruction terms have an encoding: at most two operand bytes. -/

namespace Sys2Proof

/-- An instruction has 0, 1 or 2 operand bytes (R47); the count field value 3 has no meaning (R50). -/
def Instr.wf (i : Instr) : Bool := i.operands.length ≤ 2

end Sys2Proof
end

