-- ==== Sys2Proof/Decode.lean ====
section
/-! DEFINITION. The decoder, from the opcode byte's fields (R48), the dispatch table (R52, R53) and the operand bytes
(R47, R51); after it the encoder, written from the same tables, and the words of the opcode table. -/

namespace Sys2Proof

/-- Operand count, bits 7 to 6 of the opcode byte (R48). -/
def countField (opcode : Byte) : Nat := (opcode.extractLsb' 6 2).toNat

/-- ALU flag, bit 5 of the opcode byte (R48). -/
def aluFlag (opcode : Byte) : Bool := opcode.getLsbD 5

/-- Manual-PC flag, bit 4 of the opcode byte (R48). -/
def manualPcFlag (opcode : Byte) : Bool := opcode.getLsbD 4

/-- Opcode index, bits 3 to 0 of the opcode byte (R48). -/
def indexField (opcode : Byte) : Nat := (opcode.extractLsb' 0 4).toNat

/-- The dispatch multiplexer (R67): the handler registered for the triple (ALU flag, manual-PC flag, opcode index), or
none (R52; the index values are R53's, the spec's decision D1). The 30 other triples have no handler (R57). -/
def dispatch (alu manualPc : Bool) (index : Nat) : Option (List Byte → Instr) :=
  match alu, manualPc, index with
  | false, false, 0 => some .nop
  | false, false, 1 => some .hlt
  | false, false, 2 => some .ldi
  | false, false, 3 => some .ld
  | false, false, 4 => some .st
  | false, false, 5 => some .push
  | false, false, 6 => some .pop
  | false, false, 7 => some .prn
  | false, false, 8 => some .pra
  | false, true, 0 => some .call
  | false, true, 1 => some .ret
  | false, true, 2 => some .int
  | false, true, 3 => some .iret
  | false, true, 4 => some .jmp
  | false, true, 5 => some .jeq
  | false, true, 6 => some .jne
  | false, true, 7 => some .jgt
  | false, true, 8 => some .jlt
  | false, true, 9 => some .jle
  | false, true, 10 => some .jge
  | true, false, 0 => some .add
  | true, false, 1 => some .sub
  | true, false, 2 => some .mul
  | true, false, 3 => some .div
  | true, false, 4 => some .mod
  | true, false, 5 => some .inc
  | true, false, 6 => some .dec
  | true, false, 7 => some .cmp
  | true, false, 8 => some .and
  | true, false, 9 => some .not
  | true, false, 10 => some .or
  | true, false, 11 => some .xor
  | true, false, 12 => some .shl
  | true, false, 13 => some .shr
  | _, _, _ => none

/-- Why bytes hold no instruction. -/
inductive Reject where
  /-- The count field is 3 (R50). -/
  | countThree
  /-- No handler is registered for the triple (R52, R57). -/
  | noHandler
  /-- The byte list ends before the opcode byte or before the operand bytes the count field asks for. A step never meets
  it: the memory has a byte at every address. -/
  | tooFewBytes
  deriving DecidableEq, Repr

/-- What the opcode byte alone says (R66, R72): the operand count and the handler, or why there is none. -/
def decodeOpcode (opcode : Byte) : Except Reject (Nat × (List Byte → Instr)) :=
  if countField opcode = 3 then .error .countThree
  else match dispatch (aluFlag opcode) (manualPcFlag opcode) (indexField opcode) with
    | none => .error .noHandler
    | some handler => .ok (countField opcode, handler)

/-- Reads one instruction from the front of a byte list and gives the bytes after it (R47, R59). -/
def decode : List Byte → Except Reject (Instr × List Byte)
  | [] => .error .tooFewBytes
  | opcode :: rest =>
    match decodeOpcode opcode with
    | .error why => .error why
    | .ok (n, handler) =>
      if rest.length < n then .error .tooFewBytes else .ok (handler (rest.take n), rest.drop n)

/-- A row of the opcode map (R53): the operand count of the canonical encoding and the dispatch triple. -/
structure OpcodeRow where
  count    : Nat
  alu      : Bool
  manualPc : Bool
  index    : Nat
  deriving DecidableEq, Repr

/-- The opcode map (R53). -/
def Instr.row : Instr → OpcodeRow
  | .nop _ => ⟨0, false, false, 0⟩
  | .hlt _ => ⟨0, false, false, 1⟩
  | .ldi _ => ⟨2, false, false, 2⟩
  | .ld _ => ⟨2, false, false, 3⟩
  | .st _ => ⟨2, false, false, 4⟩
  | .push _ => ⟨1, false, false, 5⟩
  | .pop _ => ⟨1, false, false, 6⟩
  | .prn _ => ⟨1, false, false, 7⟩
  | .pra _ => ⟨1, false, false, 8⟩
  | .call _ => ⟨1, false, true, 0⟩
  | .ret _ => ⟨0, false, true, 1⟩
  | .int _ => ⟨1, false, true, 2⟩
  | .iret _ => ⟨0, false, true, 3⟩
  | .jmp _ => ⟨1, false, true, 4⟩
  | .jeq _ => ⟨1, false, true, 5⟩
  | .jne _ => ⟨1, false, true, 6⟩
  | .jgt _ => ⟨1, false, true, 7⟩
  | .jlt _ => ⟨1, false, true, 8⟩
  | .jle _ => ⟨1, false, true, 9⟩
  | .jge _ => ⟨1, false, true, 10⟩
  | .add _ => ⟨2, true, false, 0⟩
  | .sub _ => ⟨2, true, false, 1⟩
  | .mul _ => ⟨2, true, false, 2⟩
  | .div _ => ⟨2, true, false, 3⟩
  | .mod _ => ⟨2, true, false, 4⟩
  | .inc _ => ⟨1, true, false, 5⟩
  | .dec _ => ⟨1, true, false, 6⟩
  | .cmp _ => ⟨2, true, false, 7⟩
  | .and _ => ⟨2, true, false, 8⟩
  | .not _ => ⟨1, true, false, 9⟩
  | .or _ => ⟨2, true, false, 10⟩
  | .xor _ => ⟨2, true, false, 11⟩
  | .shl _ => ⟨2, true, false, 12⟩
  | .shr _ => ⟨2, true, false, 13⟩

/-- The canonical encoding has the operand count of the instruction's format; the others are alias encodings (R53, R56). -/
def Instr.canonical (i : Instr) : Bool := i.operands.length = i.row.count

/-- The opcode byte nnAPiiii (R48) with the given count and the instruction's dispatch triple. -/
def opcodeByte (count : Nat) (row : OpcodeRow) : Byte :=
  BitVec.ofNat 8 (count * 64 + row.alu.toNat * 32 + row.manualPc.toNat * 16 + row.index)

/-- The bytes of an instruction: its opcode byte, the count field telling its operand bytes, then those (R47, R56). -/
def encode (i : Instr) : List Byte := opcodeByte i.operands.length i.row :: i.operands

/-- The bytes of a word of the opcode table: bits 7 to 0 are the opcode byte, bits 15 to 8 the first operand byte, bits
23 to 16 the second; bits from `nbits` on are zero. -/
def tableBytes (nbits w : Nat) : List Byte :=
  let v := w % 2 ^ nbits
  [BitVec.ofNat 8 v, BitVec.ofNat 8 (v / 2 ^ 8), BitVec.ofNat 8 (v / 2 ^ 16)]

/-- The instruction the decoder reads from a word of the opcode table. -/
def decodeTableWord (nbits w : Nat) : Option Instr :=
  match decode (tableBytes nbits w) with
  | .ok (i, _) => some i
  | .error _ => none

end Sys2Proof
end

