-- ==== Sys2Proof/Machine/Fetch.lean ====
section
/-! DEFINITION. Fetching an instruction (R64, R65, R68): the opcode byte at pc, then as many operand bytes as its count
field asks for, at the following addresses modulo 256 (R36). -/

namespace Sys2Proof.Machine

/-- `count` bytes of memory at an address and the addresses after it, modulo 256 (R36). -/
def State.bytesAt (s : State) (a : Byte) : Nat → List Byte
  | 0 => []
  | count + 1 => s.memRead a :: State.bytesAt s (a + 1) count

/-- How many operand bytes the loop reads after an opcode byte: its count field when a handler is found, none for an
illegal byte, since the step then faults before any operand is read (R64, R67). -/
def operandCount (opcode : Byte) : Nat :=
  match decodeOpcode opcode with
  | .ok (n, _) => n
  | .error _ => 0

/-- The bytes of the instruction at pc. -/
def State.fetchBytes (s : State) : List Byte :=
  let opcode := s.memRead s.pc
  opcode :: s.bytesAt (s.pc + 1) (operandCount opcode)

/-- The fetch's own effect: IR holds the opcode byte, pc is not changed (R65). -/
def State.fetchOpcode (s : State) : State := { s with ir := s.memRead s.pc }

end Sys2Proof.Machine
end

