-- ==== Sys2Proof/Machine/Step.lean ====
section
/-! DEFINITION. The step (R64): fetch, decode, dispatch, and the instruction's own part (operand fetch, pc auto-advance,
register check, handler), which `exec` does. -/

namespace Sys2Proof.Machine

/-- One step (R64). A CORE that is HALTED or in FAULT performs no step (R63). A byte with no handler raises
UnknownOpcode with pc unchanged and IR holding the byte (R67, R119). -/
def step (s : State) : Host.Outcome State Fault Refusal :=
  match s.run with
  | .halted => .fault .halted
  | .fault => .fault .faulted
  | .running =>
    match decode s.fetchBytes with
    | .error _ => .next (s.fetchOpcode.raise .unknownOpcode s.pc)
    | .ok (i, _) => exec i s.fetchOpcode

/-- The state with a word of the opcode table stored where the next step fetches: at pc and the addresses after it. -/
def State.withFetchWord (s : State) (nbits w : Nat) : State := s.storeBytes s.pc (tableBytes nbits w)

end Sys2Proof.Machine
end

