-- ==== Sys2Proof/Machine/Boot.lean ====
section
/-! DEFINITION. What the host does outside a run: load an image (R135), reset the CORE (R132, R133), observe it (R128,
R142). No step of the machine does any of this. -/

namespace Sys2Proof.Machine

/-- The reset input (R132): CORE state takes its reset values; memory, HB and the output stream stay (R133). IR, OPA and
OPB are unspecified after reset (R29), so the three bytes are arguments: any byte is possible. -/
def State.resetCore (s : State) (ir opa opb : Byte) : State :=
  { s with x := Config.registersReset, pc := Config.pcReset, fl := Config.flReset, ir := ir, opa := opa, opb := opb,
           run := .running, record := none }

/-- Loading the program image (R135): its N bytes go to addresses 0 to N - 1, HB becomes N, the other bytes stay as they
are (`MEM_INIT`). None for an image of more than 256 bytes, which the memory cannot hold. -/
def State.loadImage (s : State) (image : List Byte) : Option State :=
  if h : image.length ≤ 256 then
    some { s.storeBytes 0 image with hb := ⟨image.length, Nat.lt_succ_of_le h⟩ }
  else none

/-- What the host can read at any time (R128). -/
structure HostStatus where
  run    : RunState
  record : Option FaultRecord
  deriving DecidableEq, Repr

/-- `run` at any time, and in FAULT `cause` and `fpc` (R128). -/
def State.status (s : State) : HostStatus :=
  ⟨s.run, match s.run with | .fault => s.record | .running => none | .halted => none⟩

/-- What the host can read once the CORE has stopped (R128). -/
structure StoppedView where
  x   : Vector Byte 8
  pc  : Byte
  fl  : Byte
  mem : Memory
  deriving DecidableEq, Repr

/-- Every register, pc, FL and the memory, once the CORE has stopped (R128). -/
def State.stoppedView (s : State) : Option StoppedView :=
  match s.run with
  | .running => none
  | .halted => some ⟨s.x, s.pc, s.fl, s.mem⟩
  | .fault => some ⟨s.x, s.pc, s.fl, s.mem⟩

end Sys2Proof.Machine
end

