-- ==== Sys2Proof/Safety.lean ====
section
/-! DEFINITION. The terms claims use: the invariant of the state, stopping, and runs without a fault. -/

namespace Sys2Proof.Machine

/-- FL holds no flag or exactly one, and bits 7 to 3 are 0 (R21). -/
abbrev State.flLegal (s : State) : Prop := s.fl = 0x00 ∨ s.fl = 0x01 ∨ s.fl = 0x02 ∨ s.fl = 0x04

/-- The invariant every step keeps: memory in canonical form, FL legal (R21), and a fault record exactly in FAULT (R25). -/
abbrev State.Inv (s : State) : Prop :=
  s.mem.wf = true ∧ s.flLegal ∧ (s.run = .fault ↔ s.record.isSome = true)

/-- HALTED and FAULT are the stop states (R129). -/
abbrev State.stopped (s : State) : Prop := s.run = .halted ∨ s.run = .fault

/-- For k steps from the state the CORE does not enter FAULT: a run that is safe so far, whether or not it has halted. -/
def SafeFor : Nat → State → Prop
  | 0, s => s.run ≠ .fault
  | k + 1, s => s.run ≠ .fault ∧ ∀ t, step s = .next t → SafeFor k t

/-- The run from the state ends in HALTED within k steps (R141). -/
def HaltsWithin : Nat → State → Prop
  | 0, s => s.run = .halted
  | k + 1, s => s.run = .halted ∨ ∃ t, step s = .next t ∧ HaltsWithin k t

end Sys2Proof.Machine
end

