-- ==== Sys2Proof/Certificates/Slice0/Obligations.lean ====
section
/-! DEFINITION. The statements for the provers. The first part names what several statements say (written from the spec,
not from the meanings); the second part states them. A docstring names the rule of spec/ it formalises, and what rests on
a decision (D<n>, 92_eei_decisions.md) or inference of the spec, or on a log entry of the model. -/

namespace Sys2Proof.Claims

open Sys2Proof.Machine

/-! ### Words the statements share -/

/-- What OPA holds while the handler runs: the first operand byte, or the earlier value (R24). -/
def opaOf (operands : List Byte) (s : State) : Byte :=
  match operands with
  | [] => s.opa
  | a :: _ => a

/-- What OPB holds while the handler runs: the second operand byte, or the earlier value (R24). -/
def opbOf (operands : List Byte) (s : State) : Byte :=
  match operands with
  | [] => s.opb
  | [_] => s.opb
  | _ :: b :: _ => b

/-- The byte names the register (R54). -/
abbrev Names (k : Byte) (r : RegIndex) : Prop := k.toNat = r.val

/-- The byte names no register (R54). -/
abbrev NamesNone (k : Byte) : Prop := 8 ≤ k.toNat

/-- The address after the instruction at pc, modulo 256 (R18). -/
def afterInstr (operands : List Byte) (s : State) : Byte := s.pc + BitVec.ofNat 8 (operands.length + 1)

/-- The state once the loop has fetched the operands (R68). -/
def latched (operands : List Byte) (s : State) : State :=
  { s with opa := opaOf operands s, opb := opbOf operands s }

/-- The state once the loop has fetched the operands and advanced pc (R68, R69). -/
def advanced (operands : List Byte) (s : State) : State :=
  { s with opa := opaOf operands s, opb := opbOf operands s, pc := afterInstr operands s }

/-- t is u in everything but pc and the operand latches, which the loop writes before the handler (R64). -/
def SameButLoop (u t : State) : Prop := t = { u with pc := t.pc, opa := t.opa, opb := t.opb }

/-- t is u in everything but the operand latches. -/
def SameButLatches (u t : State) : Prop := t = { u with opa := t.opa, opb := t.opb }

/-- The instruction completes; it writes v to register r and nothing else but what the loop writes. -/
def WritesReg (i : Instr) (s : State) (r : RegIndex) (v : Byte) : Prop :=
  ∃ t, exec i s = .next t ∧ SameButLoop { s with x := s.x.set r.val v } t

/-- The instruction raises the cause, with fpc its own address (R124), and nothing else changes but what the loop writes. -/
def Raises (i : Instr) (s : State) (c : Cause) : Prop :=
  ∃ t, exec i s = .next t ∧ SameButLoop { s with run := .fault, record := some ⟨c, s.pc⟩ } t

/-- The instruction completes in u but for memory, where the byte at a is v and every other byte is as before. -/
def StoresByte (i : Instr) (s u : State) (a v : Byte) : Prop :=
  ∃ t, exec i s = .next t ∧ t = { u with mem := t.mem } ∧ ∀ b, t.memRead b = if b = a then v else s.memRead b

/-- The jump completes with pc at the target when taken, else past the instruction; nothing else changes but the latches. -/
def JumpsWhen (taken : Bool) (i : Instr) (s : State) (ra : RegIndex) : Prop :=
  ∃ t, exec i s = .next t ∧
    SameButLatches { s with pc := if taken then s.readReg ra else afterInstr i.operands s } t

/-- A jump that raises IllegalRegister leaves pc at its own address. -/
def JumpRaises (i : Instr) (s : State) : Prop :=
  ∃ t, exec i s = .next t ∧ SameButLatches { s with run := .fault, record := some ⟨.illegalRegister, s.pc⟩ } t

/-- The canonical encoding of an instruction with one operand byte. -/
def OneOperand (instr : List Byte → Instr) (opcode : Byte) : Prop :=
  ∀ a, encode (instr [a]) = [opcode, a] ∧ decode [opcode, a] = .ok (instr [a], [])

/-- The canonical encoding of an instruction with two operand bytes. -/
def TwoOperands (instr : List Byte → Instr) (opcode : Byte) : Prop :=
  ∀ a b, encode (instr [a, b]) = [opcode, a, b] ∧ decode [opcode, a, b] = .ok (instr [a, b], [])

/-- The instructions whose format names OPA as a register: F1R, F2RR, F2RI (R51). -/
def namesRa : Instr → Bool
  | .push _ | .pop _ | .prn _ | .pra _ | .call _ | .jmp _ | .jeq _ | .jne _ | .jgt _ | .jlt _ | .jle _ | .jge _
  | .inc _ | .dec _ | .not _ => true
  | .add _ | .sub _ | .mul _ | .div _ | .mod _ | .cmp _ | .and _ | .or _ | .xor _ | .shl _ | .shr _ | .ld _ | .st _ => true
  | .ldi _ => true
  | .nop _ | .hlt _ | .ret _ | .iret _ | .int _ => false

/-- The instructions whose format names OPB as a register: F2RR (R51). -/
def namesRb : Instr → Bool
  | .add _ | .sub _ | .mul _ | .div _ | .mod _ | .cmp _ | .and _ | .or _ | .xor _ | .shl _ | .shr _ | .ld _ | .st _ => true
  | .push _ | .pop _ | .prn _ | .pra _ | .call _ | .jmp _ | .jeq _ | .jne _ | .jgt _ | .jlt _ | .jle _ | .jge _
  | .inc _ | .dec _ | .not _ | .ldi _ | .nop _ | .hlt _ | .ret _ | .iret _ | .int _ => false

/-- The conditional branches, the only readers of FL (R20). -/
def isConditionalBranch : Instr → Bool
  | .jeq _ | .jne _ | .jgt _ | .jge _ | .jlt _ | .jle _ => true
  | .add _ | .sub _ | .mul _ | .div _ | .mod _ | .cmp _ | .and _ | .or _ | .xor _ | .shl _ | .shr _ | .ld _ | .st _
  | .push _ | .pop _ | .prn _ | .pra _ | .call _ | .jmp _ | .inc _ | .dec _ | .not _ | .ldi _ | .nop _ | .hlt _ | .ret _
  | .iret _ | .int _ => false

/-- CMP, the only writer of FL (R20). -/
def isCompare : Instr → Bool
  | .cmp _ => true
  | .add _ | .sub _ | .mul _ | .div _ | .mod _ | .and _ | .or _ | .xor _ | .shl _ | .shr _ | .ld _ | .st _
  | .push _ | .pop _ | .prn _ | .pra _ | .call _ | .jmp _ | .jeq _ | .jne _ | .jgt _ | .jge _ | .jlt _ | .jle _ | .inc _
  | .dec _ | .not _ | .ldi _ | .nop _ | .hlt _ | .ret _ | .iret _ | .int _ => false

/-- PRN and PRA, the only writers of the output stream (R110). -/
def isPrint : Instr → Bool
  | .prn _ | .pra _ => true
  | .add _ | .sub _ | .mul _ | .div _ | .mod _ | .cmp _ | .and _ | .or _ | .xor _ | .shl _ | .shr _ | .ld _ | .st _
  | .push _ | .pop _ | .call _ | .jmp _ | .jeq _ | .jne _ | .jgt _ | .jge _ | .jlt _ | .jle _ | .inc _ | .dec _ | .not _
  | .ldi _ | .nop _ | .hlt _ | .ret _ | .iret _ | .int _ => false

/-- The registers an instruction may write (R16): the first operand register, SP, or both. -/
def mayWrite (i : Instr) (s : State) (r : RegIndex) : Prop :=
  match i with
  | .add o | .sub o | .mul o | .div o | .mod o | .and o | .or o | .xor o | .shl o | .shr o | .not o | .inc o | .dec o
  | .ldi o | .ld o => Names (opaOf o s) r
  | .pop o => Names (opaOf o s) r ∨ r = 7
  | .call _ | .ret _ | .push _ => r = 7
  | .cmp _ | .jmp _ | .jeq _ | .jne _ | .jgt _ | .jge _ | .jlt _ | .jle _ | .st _ | .prn _ | .pra _ | .hlt _ | .nop _
  | .int _ | .iret _ => False

/-- The value of the register a byte names, none for a byte that names no register. -/
def namedValue (s : State) (k : Byte) : Option Byte := s.x[k.toNat]?

/-- The address an instruction stores to (R33): x[ra] for ST, the decremented SP for PUSH and CALL, none for the others. -/
def storeAddress (i : Instr) (s : State) : Option Byte :=
  match i with
  | .st o => namedValue s (opaOf o s)
  | .push _ | .call _ => some (s.readReg 7 - 1)
  | .add _ | .sub _ | .mul _ | .div _ | .mod _ | .cmp _ | .and _ | .or _ | .xor _ | .shl _ | .shr _ | .ld _
  | .pop _ | .prn _ | .pra _ | .jmp _ | .jeq _ | .jne _ | .jgt _ | .jge _ | .jlt _ | .jle _ | .inc _ | .dec _ | .not _
  | .ldi _ | .nop _ | .hlt _ | .ret _ | .iret _ | .int _ => none

/-- The address a handler reads a byte from (R33): x[rb] for LD, x[ra] for PRA, SP for POP and RET, none for the others. -/
def loadAddress (i : Instr) (s : State) : Option Byte :=
  match i with
  | .ld o => namedValue s (opbOf o s)
  | .pra o => namedValue s (opaOf o s)
  | .pop _ | .ret _ => some (s.readReg 7)
  | .add _ | .sub _ | .mul _ | .div _ | .mod _ | .cmp _ | .and _ | .or _ | .xor _ | .shl _ | .shr _ | .st _
  | .push _ | .prn _ | .call _ | .jmp _ | .jeq _ | .jne _ | .jgt _ | .jge _ | .jlt _ | .jle _ | .inc _ | .dec _ | .not _
  | .ldi _ | .nop _ | .hlt _ | .iret _ | .int _ => none

/-- The cause an instruction raises, in the order of the checks (R123): IllegalRegister, then the handler's own. -/
def causeOf (i : Instr) (s : State) : Option Cause :=
  if (namesRa i && decide (NamesNone (opaOf i.operands s))) || (namesRb i && decide (NamesNone (opbOf i.operands s))) then
    some .illegalRegister
  else
    match i with
    | .push _ | .call _ => if (s.readReg 7).toNat ≤ s.hb.val + 1 then some .stackOverflow else none
    | .div o | .mod o => if namedValue s (opbOf o s) = some 0 then some .divisionByZero else none
    | .add _ | .sub _ | .mul _ | .cmp _ | .and _ | .or _ | .xor _ | .shl _ | .shr _ | .ld _ | .st _ | .pop _ | .prn _
    | .pra _ | .jmp _ | .jeq _ | .jne _ | .jgt _ | .jge _ | .jlt _ | .jle _ | .inc _ | .dec _ | .not _ | .ldi _ | .nop _
    | .hlt _ | .ret _ | .iret _ | .int _ => none

/-- The 154 illegal opcode bytes (R57): count field 3, or low six bits with no handler. -/
def illegalByte (b : Byte) : Bool :=
  let low := b.toNat % 64
  decide (0xC0 ≤ b.toNat) || decide (0x09 ≤ low ∧ low ≤ 0x0F) || decide (0x1B ≤ low ∧ low ≤ 0x1F) ||
    decide (low = 0x2E) || decide (low = 0x2F) || decide (0x30 ≤ low)

/-- The 34 canonical opcode bytes (R53). -/
def canonicalBytes : List Nat :=
  [0x00, 0x01, 0x82, 0x83, 0x84, 0x45, 0x46, 0x47, 0x48, 0x50, 0x11, 0x52, 0x13, 0x54, 0x55, 0x56, 0x57] ++
  [0x58, 0x59, 0x5A, 0xA0, 0xA1, 0xA2, 0xA3, 0xA4, 0x65, 0x66, 0xA7, 0xA8, 0x69, 0xAA, 0xAB, 0xAC, 0xAD]

/-- The instructions the opcode byte b stands for, with any operand bytes: none for an illegal byte. -/
def canonicalByte (b : Byte) : Bool :=
  match decode [b, 0, 0] with
  | .ok (i, _) => i.canonical
  | .error _ => false

/-- k PUSH instructions one after another, stopping at a fault. -/
def pushTimes (operands : List Byte) : Nat → State → Result
  | 0, s => .next s
  | k + 1, s =>
    match exec (.push operands) s with
    | .next t => if t.run = .fault then .next t else pushTimes operands k t
    | .fault r => .fault r
    | .refused r => .refused r

end Sys2Proof.Claims

open Sys2Proof Sys2Proof.Machine Sys2Proof.Claims

/-! ### Encoding -/

/-- A word of every instruction, written out bit by bit from its Encoding line, decodes to that instruction with its operand
bytes in order; so do two alias words; two illegal bytes are refused. Rests on R53's values (the spec's D1), on D12 and on
D13. -/
def Obligations.WrittenWordsDecode : Prop :=
  decode [0b00000000] = .ok (.nop [], []) ∧
  decode [0b00000001] = .ok (.hlt [], []) ∧
  decode [0b10000010, 0x03, 0x05] = .ok (.ldi [0x03, 0x05], []) ∧
  decode [0b10000011, 0x03, 0x05] = .ok (.ld [0x03, 0x05], []) ∧
  decode [0b10000100, 0x03, 0x05] = .ok (.st [0x03, 0x05], []) ∧
  decode [0b01000101, 0x03] = .ok (.push [0x03], []) ∧
  decode [0b01000110, 0x03] = .ok (.pop [0x03], []) ∧
  decode [0b01000111, 0x03] = .ok (.prn [0x03], []) ∧
  decode [0b01001000, 0x03] = .ok (.pra [0x03], []) ∧
  decode [0b01010000, 0x03] = .ok (.call [0x03], []) ∧
  decode [0b00010001] = .ok (.ret [], []) ∧
  decode [0b01010010, 0x03] = .ok (.int [0x03], []) ∧
  decode [0b00010011] = .ok (.iret [], []) ∧
  decode [0b01010100, 0x03] = .ok (.jmp [0x03], []) ∧
  decode [0b01010101, 0x03] = .ok (.jeq [0x03], []) ∧
  decode [0b01010110, 0x03] = .ok (.jne [0x03], []) ∧
  decode [0b01010111, 0x03] = .ok (.jgt [0x03], []) ∧
  decode [0b01011000, 0x03] = .ok (.jlt [0x03], []) ∧
  decode [0b01011001, 0x03] = .ok (.jle [0x03], []) ∧
  decode [0b01011010, 0x03] = .ok (.jge [0x03], []) ∧
  decode [0b10100000, 0x03, 0x05] = .ok (.add [0x03, 0x05], []) ∧
  decode [0b10100001, 0x03, 0x05] = .ok (.sub [0x03, 0x05], []) ∧
  decode [0b10100010, 0x03, 0x05] = .ok (.mul [0x03, 0x05], []) ∧
  decode [0b10100011, 0x03, 0x05] = .ok (.div [0x03, 0x05], []) ∧
  decode [0b10100100, 0x03, 0x05] = .ok (.mod [0x03, 0x05], []) ∧
  decode [0b01100101, 0x03] = .ok (.inc [0x03], []) ∧
  decode [0b01100110, 0x03] = .ok (.dec [0x03], []) ∧
  decode [0b10100111, 0x03, 0x05] = .ok (.cmp [0x03, 0x05], []) ∧
  decode [0b10101000, 0x03, 0x05] = .ok (.and [0x03, 0x05], []) ∧
  decode [0b01101001, 0x03] = .ok (.not [0x03], []) ∧
  decode [0b10101010, 0x03, 0x05] = .ok (.or [0x03, 0x05], []) ∧
  decode [0b10101011, 0x03, 0x05] = .ok (.xor [0x03, 0x05], []) ∧
  decode [0b10101100, 0x03, 0x05] = .ok (.shl [0x03, 0x05], []) ∧
  decode [0b10101101, 0x03, 0x05] = .ok (.shr [0x03, 0x05], []) ∧
  decode [0b00000010, 0x77] = .ok (.ldi [], [0x77]) ∧
  decode [0b01100000, 0x03, 0x77] = .ok (.add [0x03], [0x77]) ∧
  decode [0b11000010, 0x00, 0x00] = .error .countThree ∧
  decode [0b00110000, 0x00, 0x00] = .error .noHandler

/-- Decode after encode is the identity on every well-formed instruction, whatever bytes follow (R47, R48, R52, R53, R56;
the index values are the spec's D1, the alias encodings its D13). -/
def Obligations.DecodeOfEncode : Prop :=
  ∀ (i : Instr) (rest : List Byte), i.wf = true → decode (encode i ++ rest) = .ok (i, rest)

/-- Encode after decode gives the bytes back: no bit of an instruction is dropped, and what is decoded is well-formed, its
length being the count field plus one (R47, R59). -/
def Obligations.EncodeOfDecode : Prop :=
  ∀ (bytes : List Byte) (i : Instr) (rest : List Byte), decode bytes = .ok (i, rest) →
    i.wf = true ∧ encode i ++ rest = bytes ∧ (∃ b more, bytes = b :: more ∧ (encode i).length = b.toNat / 64 + 1)

/-- Of the 256 byte values, 34 are canonical encodings, 68 alias encodings and 154 illegal (R57, which the spec marks as
derived; R50, R53, R56). -/
def Obligations.OpcodeByteClasses : Prop :=
  (∀ b : Byte, illegalByte b = true ↔ ∃ why, decodeOpcode b = .error why) ∧
  (∀ b : Byte, canonicalByte b = true ↔ b.toNat ∈ canonicalBytes) ∧
  ((List.range 256).filter fun k => canonicalByte (BitVec.ofNat 8 k)).length = 34 ∧
  ((List.range 256).filter fun k => !canonicalByte (BitVec.ofNat 8 k) && !illegalByte (BitVec.ofNat 8 k)).length = 68 ∧
  ((List.range 256).filter fun k => illegalByte (BitVec.ofNat 8 k)).length = 154

/-! ### The loop -/

/-- A step runs the decoded instruction: when the bytes at pc (at rising addresses modulo 256) are those of a well-formed
instruction, the step of a RUNNING CORE is that instruction's execution after the fetch has put the opcode byte in IR
(R64, R65, R68; the wrap at 255 is the spec's D6). -/
def Obligations.StepRunsDecodedInstr : Prop :=
  ∀ (i : Instr) (s : State), s.run = .running → i.wf = true →
    (∀ (k : Nat) (h : k < (encode i).length), s.memRead (s.pc + BitVec.ofNat 8 k) = (encode i)[k]) →
    step s = exec i { s with ir := s.memRead s.pc }

/-- R119: an opcode byte with no handler raises UnknownOpcode, before any operand is read and before pc changes, so pc =
fpc and IR holds the byte; the 154 bytes of R57 and no others (which bytes they are rests on the spec's D1 and D12, the
fault record on its D8). -/
def Obligations.UnknownOpcodeStops : Prop :=
  (∀ s : State, s.run = .running → illegalByte (s.memRead s.pc) = true →
    step s = .next { s with ir := s.memRead s.pc, run := .fault, record := some ⟨.unknownOpcode, s.pc⟩ }) ∧
  (∀ s t : State, illegalByte (s.memRead s.pc) = false → step s = .next t → t.run = .fault →
    ∀ p, t.record ≠ some ⟨.unknownOpcode, p⟩) ∧
  ((List.range 256).filter fun k => illegalByte (BitVec.ofNat 8 k)).length = 154

/-- R24: OPA receives the first operand byte and OPB the second, a latch not written keeps its earlier value, and only
alias encodings let a program observe an earlier value: a canonical instruction does the same whatever the latches held. -/
def Obligations.LatchesHoldOperandBytes : Prop :=
  (∀ (i : Instr) (s t : State), exec i s = .next t → t.opa = opaOf i.operands s ∧ t.opb = opbOf i.operands s) ∧
  (∀ (i : Instr) (s t : State) (p q : Byte), i.canonical = true → exec i s = .next t →
    ∃ u, exec i { s with opa := p, opb := q } = .next u ∧ SameButLatches t u)

/-- R23: IR holds the opcode byte fetched at the start of the step; it is written at every fetch, and no program can observe
it: a step does the same whatever IR held before the fetch, and the handler does the same whatever the fetch put in IR. -/
def Obligations.IrHoldsFetchedByte : Prop :=
  (∀ s t : State, step s = .next t → t.ir = s.memRead s.pc) ∧
  (∀ (s : State) (b : Byte), step { s with ir := b } = step s) ∧
  (∀ (i : Instr) (s t : State) (b : Byte), exec i s = .next t → exec i { s with ir := b } = .next { t with ir := b })

/-- Every instruction with manual-PC flag 0 leaves pc past its bytes, whether or not it faults; and no instruction changes
IR, which the fetch alone writes (R18, R23, R69; the wrap is the spec's D6, the alias counts its D13). -/
def Obligations.LoopAdvancesPc : Prop :=
  ∀ (i : Instr) (s t : State), exec i s = .next t →
    t.ir = s.ir ∧ (i.row.manualPc = false → t.pc = afterInstr i.operands s)

/-- R63: steps only while RUNNING; HALTED is entered by HLT and FAULT by a raised error; no step leaves either, reset
does (the FAULT state and its record are the spec's D8, reset its D25). -/
def Obligations.StopStatesAreTerminal : Prop :=
  (∀ s : State, s.run = .halted ∨ s.run = .fault → ∀ t, step s ≠ .next t) ∧
  (∀ (s : State) (ops rest : List Byte), s.run = .running → decode s.fetchBytes = .ok (.hlt ops, rest) →
    ∃ t, step s = .next t ∧ t.run = .halted) ∧
  (∀ s t : State, step s = .next t → t.run = .halted → ∃ ops rest, decode s.fetchBytes = .ok (.hlt ops, rest)) ∧
  (∀ s t : State, step s = .next t → t.run = .fault → ∃ c, t.record = some ⟨c, s.pc⟩) ∧
  (∀ (s : State) (ir opa opb : Byte), (s.resetCore ir opa opb).run = .running)

/-- A RUNNING CORE takes its next step, whatever its state, memory and program (R140, which the spec marks as derived). -/
def Obligations.RunningCoreSteps : Prop :=
  ∀ s : State, s.run = .running ↔ ∃ t, step s = .next t

/-! ### ALU -/

/-- R75, R76, R77: ADD, SUB and MUL write the result modulo 256 to the first operand register (in this and the next
statements the opcode bytes are the spec's D1, the register check its D2 and D17, the fault record its D8). -/
def Obligations.AddSubMulModulo256 : Prop :=
  (∀ (ops : List Byte) (s : State) (ra rb : RegIndex), Names (opaOf ops s) ra → Names (opbOf ops s) rb →
    WritesReg (.add ops) s ra (BitVec.ofNat 8 ((s.readReg ra).toNat + (s.readReg rb).toNat)) ∧
    WritesReg (.sub ops) s ra (BitVec.ofNat 8 ((s.readReg ra).toNat + 256 - (s.readReg rb).toNat)) ∧
    WritesReg (.mul ops) s ra (BitVec.ofNat 8 ((s.readReg ra).toNat * (s.readReg rb).toNat))) ∧
  (∀ (ops : List Byte) (s : State), NamesNone (opaOf ops s) ∨ NamesNone (opbOf ops s) →
    Raises (.add ops) s .illegalRegister ∧ Raises (.sub ops) s .illegalRegister ∧ Raises (.mul ops) s .illegalRegister) ∧
  TwoOperands .add 0xA0 ∧ TwoOperands .sub 0xA1 ∧ TwoOperands .mul 0xA2

/-- R83, R86, R87: NOT, INC and DEC write the result to their one register (D1, D2, D8, D17 as above). -/
def Obligations.NotIncDecResults : Prop :=
  (∀ (ops : List Byte) (s : State) (ra : RegIndex), Names (opaOf ops s) ra →
    WritesReg (.not ops) s ra (BitVec.ofNat 8 (255 - (s.readReg ra).toNat)) ∧
    WritesReg (.inc ops) s ra (BitVec.ofNat 8 ((s.readReg ra).toNat + 1)) ∧
    WritesReg (.dec ops) s ra (BitVec.ofNat 8 ((s.readReg ra).toNat + 255))) ∧
  (∀ (ops : List Byte) (s : State), NamesNone (opaOf ops s) →
    Raises (.not ops) s .illegalRegister ∧ Raises (.inc ops) s .illegalRegister ∧ Raises (.dec ops) s .illegalRegister) ∧
  OneOperand .not 0x69 ∧ OneOperand .inc 0x65 ∧ OneOperand .dec 0x66

/-- R80, R81, R82: AND, OR and XOR write the bitwise result to the first operand register (D1, D2, D8, D17 as above). -/
def Obligations.AndOrXorBitwise : Prop :=
  (∀ (ops : List Byte) (s : State) (ra rb : RegIndex), Names (opaOf ops s) ra → Names (opbOf ops s) rb →
    ∃ va vo vx : Byte, WritesReg (.and ops) s ra va ∧ WritesReg (.or ops) s ra vo ∧ WritesReg (.xor ops) s ra vx ∧
      ∀ k, va.getLsbD k = ((s.readReg ra).getLsbD k && (s.readReg rb).getLsbD k) ∧
        vo.getLsbD k = ((s.readReg ra).getLsbD k || (s.readReg rb).getLsbD k) ∧
        vx.getLsbD k = ((s.readReg ra).getLsbD k != (s.readReg rb).getLsbD k)) ∧
  (∀ (ops : List Byte) (s : State), NamesNone (opaOf ops s) ∨ NamesNone (opbOf ops s) →
    Raises (.and ops) s .illegalRegister ∧ Raises (.or ops) s .illegalRegister ∧ Raises (.xor ops) s .illegalRegister) ∧
  TwoOperands .and 0xA8 ∧ TwoOperands .or 0xAA ∧ TwoOperands .xor 0xAB

/-- R78, R79: DIV and MOD write the unsigned quotient and remainder; a zero divisor raises DivisionByZero and writes
nothing (D1, D2, D8, D17 as above). -/
def Obligations.DivModResults : Prop :=
  (∀ (ops : List Byte) (s : State) (ra rb : RegIndex), Names (opaOf ops s) ra → Names (opbOf ops s) rb →
    (s.readReg rb ≠ 0 →
      WritesReg (.div ops) s ra (BitVec.ofNat 8 ((s.readReg ra).toNat / (s.readReg rb).toNat)) ∧
      WritesReg (.mod ops) s ra (BitVec.ofNat 8 ((s.readReg ra).toNat % (s.readReg rb).toNat))) ∧
    (s.readReg rb = 0 → Raises (.div ops) s .divisionByZero ∧ Raises (.mod ops) s .divisionByZero)) ∧
  (∀ (ops : List Byte) (s : State), NamesNone (opaOf ops s) ∨ NamesNone (opbOf ops s) →
    Raises (.div ops) s .illegalRegister ∧ Raises (.mod ops) s .illegalRegister) ∧
  TwoOperands .div 0xA3 ∧ TwoOperands .mod 0xA4

/-- SHL and SHR shift x[ra] by x[rb], filling with zeros; an amount of 8 or more gives 0 (R84, R85; the operand roles are
the spec's D3, the amounts of 8 or more and the logical right shift its D22, the wrap of pc its D6). -/
def Obligations.ShiftResults : Prop :=
  ∀ (ops : List Byte) (s : State) (ra rb : RegIndex), Names (opaOf ops s) ra → Names (opbOf ops s) rb →
    exec (.shl ops) s = .next { advanced ops s with
      x := s.x.set ra.val (BitVec.ofNat 8 ((s.readReg ra).toNat * 2 ^ (s.readReg rb).toNat)) } ∧
    exec (.shr ops) s = .next { advanced ops s with
      x := s.x.set ra.val (BitVec.ofNat 8 ((s.readReg ra).toNat / 2 ^ (s.readReg rb).toNat)) } ∧
    (8 ≤ (s.readReg rb).toNat → exec (.shl ops) s = .next { advanced ops s with x := s.x.set ra.val 0 } ∧
      exec (.shr ops) s = .next { advanced ops s with x := s.x.set ra.val 0 })

/-- CMP writes all of FL and nothing else: 0x01 when equal, 0x02 when x[ra] is greater, 0x04 when it is less, unsigned
(R88; unsigned is the spec's D24, the wrap of pc its D6). -/
def Obligations.CompareSetsOneFlag : Prop :=
  ∀ (ops : List Byte) (s : State) (ra rb : RegIndex), Names (opaOf ops s) ra → Names (opbOf ops s) rb →
    exec (.cmp ops) s = .next { advanced ops s with
      fl := if (s.readReg ra).toNat = (s.readReg rb).toNat then 0x01
            else if (s.readReg rb).toNat < (s.readReg ra).toNat then 0x02 else 0x04 }

/-- A quotient and remainder taken from the same operands satisfy a = b * q + r with r < b (R89). -/
def Obligations.DivModLaw : Prop :=
  ∀ (ops : List Byte) (s : State) (ra rb : RegIndex), Names (opaOf ops s) ra → Names (opbOf ops s) rb → s.readReg rb ≠ 0 →
    ∃ t u, exec (.div ops) s = .next t ∧ exec (.mod ops) s = .next u ∧
      (s.readReg ra).toNat = (s.readReg rb).toNat * (t.readReg ra).toNat + (u.readReg ra).toNat ∧
      (u.readReg ra).toNat < (s.readReg rb).toNat

/-- ADD then SUB with the same operand, in another register, returns every register to its value (R89, which the spec
marks as derived). -/
def Obligations.AddThenSubRestores : Prop :=
  ∀ (ops : List Byte) (s : State) (ra rb : RegIndex), Names (opaOf ops s) ra → Names (opbOf ops s) rb → ra ≠ rb →
    ∃ t u, exec (.add ops) s = .next t ∧ exec (.sub ops) t = .next u ∧ u.x = s.x

/-! ### Flags -/

/-- R20: only CMP changes FL, and it writes all of it; only the conditional branches read FL; no instruction moves FL to a
register, to memory or to the output. -/
def Obligations.FlagsWrittenByCompareReadByBranches : Prop :=
  (∀ s t : State, step s = .next t → (∀ i rest, decode s.fetchBytes = .ok (i, rest) → isCompare i = false) →
    t.fl = s.fl) ∧
  (∀ (ops : List Byte) (s : State) (f : Byte) (ra rb : RegIndex), Names (opaOf ops s) ra → Names (opbOf ops s) rb →
    exec (.cmp ops) { s with fl := f } = exec (.cmp ops) s) ∧
  (∀ (i : Instr) (s t : State) (f : Byte), isConditionalBranch i = false → exec i s = .next t →
    ∃ u, exec i { s with fl := f } = .next u ∧ u = { t with fl := u.fl }) ∧
  (∀ (i : Instr) (s t : State) (f : Byte), exec i s = .next t →
    ∃ u, exec i { s with fl := f } = .next u ∧ u.x = t.x ∧ u.mem = t.mem ∧ u.output = t.output)

/-- After any CMP exactly one of E, G, L is set and the other bits are clear, and every later step keeps FL one of 0x01,
0x02, 0x04 (R21, partly marked by the spec as derived). -/
def Obligations.OneFlagAfterFirstCompare : Prop :=
  (∀ (ops : List Byte) (s t : State) (ra rb : RegIndex), Names (opaOf ops s) ra → Names (opbOf ops s) rb →
    exec (.cmp ops) s = .next t → t.fl = 0x01 ∨ t.fl = 0x02 ∨ t.fl = 0x04) ∧
  (∀ s t : State, step s = .next t → (s.fl = 0x01 ∨ s.fl = 0x02 ∨ s.fl = 0x04) → t.fl = 0x01 ∨ t.fl = 0x02 ∨ t.fl = 0x04)

/-- A branch right after CMP is taken exactly when the unsigned relation of its name holds of the values compared (R88,
R92, D24: "greater or equal" is G or E, "less or equal" is L or E, the spec's reading of "as named"). -/
def Obligations.CompareThenBranch : Prop :=
  ∀ (ops ops' : List Byte) (s : State) (ra rb : RegIndex), Names (opaOf ops s) ra → Names (opbOf ops s) rb →
    ∃ t, exec (.cmp ops) s = .next t ∧ t.x = s.x ∧ ∀ rt, Names (opaOf ops' t) rt →
      JumpsWhen (s.readReg ra == s.readReg rb) (.jeq ops') t rt ∧
      JumpsWhen (s.readReg ra != s.readReg rb) (.jne ops') t rt ∧
      JumpsWhen (decide ((s.readReg rb).toNat < (s.readReg ra).toNat)) (.jgt ops') t rt ∧
      JumpsWhen (decide ((s.readReg rb).toNat ≤ (s.readReg ra).toNat)) (.jge ops') t rt ∧
      JumpsWhen (decide ((s.readReg ra).toNat < (s.readReg rb).toNat)) (.jlt ops') t rt ∧
      JumpsWhen (decide ((s.readReg ra).toNat ≤ (s.readReg rb).toNat)) (.jle ops') t rt

/-! ### Control and stack -/

/-- R93 to R99: JMP jumps to x[ra]; each conditional branch does when its bits of FL say so and else falls through to
pc + n + 1; a register operand above 7 raises IllegalRegister, taken or not. Nothing else changes (the register operand of the
branches is the spec's D4, the opcode bytes its D1, the check on every path its D2 and D17, the wrap its D6). -/
def Obligations.JumpsAndBranches : Prop :=
  (∀ (ops : List Byte) (s : State) (ra : RegIndex), Names (opaOf ops s) ra →
    JumpsWhen true (.jmp ops) s ra ∧
    JumpsWhen (s.fl.getLsbD 0) (.jeq ops) s ra ∧
    JumpsWhen (!s.fl.getLsbD 0) (.jne ops) s ra ∧
    JumpsWhen (s.fl.getLsbD 1) (.jgt ops) s ra ∧
    JumpsWhen (s.fl.getLsbD 1 || s.fl.getLsbD 0) (.jge ops) s ra ∧
    JumpsWhen (s.fl.getLsbD 2) (.jlt ops) s ra ∧
    JumpsWhen (s.fl.getLsbD 2 || s.fl.getLsbD 0) (.jle ops) s ra) ∧
  (∀ (ops : List Byte) (s : State), NamesNone (opaOf ops s) →
    JumpRaises (.jmp ops) s ∧ JumpRaises (.jeq ops) s ∧ JumpRaises (.jne ops) s ∧ JumpRaises (.jgt ops) s ∧
    JumpRaises (.jge ops) s ∧ JumpRaises (.jlt ops) s ∧ JumpRaises (.jle ops) s) ∧
  OneOperand .jmp 0x54 ∧ OneOperand .jeq 0x55 ∧ OneOperand .jne 0x56 ∧ OneOperand .jgt 0x57 ∧ OneOperand .jge 0x5A ∧
  OneOperand .jlt 0x58 ∧ OneOperand .jle 0x59

/-- CALL pushes the address of the next instruction at the decremented SP and jumps to the register's value before the
push; when the decremented SP would be at or below HB it raises StackOverflow, with nothing written and pc unchanged
(R100, R102; the check on CALL is the spec's D10, the target read first its D18). -/
def Obligations.CallPushesReturnAddress : Prop :=
  ∀ (ops : List Byte) (s : State) (ra : RegIndex), Names (opaOf ops s) ra →
    (s.hb.val + 1 < (s.readReg 7).toNat →
      StoresByte (.call ops) s { latched ops s with pc := s.readReg ra, x := s.x.set 7 (s.readReg 7 - 1) }
        (s.readReg 7 - 1) (afterInstr ops s)) ∧
    ((s.readReg 7).toNat ≤ s.hb.val + 1 →
      exec (.call ops) s = .next { latched ops s with run := .fault, record := some ⟨.stackOverflow, s.pc⟩ })

/-- RET pops the byte at SP into pc and increments SP modulo 256, with no underflow check (R101, R103; no check and the
wrap are the spec's D11). -/
def Obligations.RetPopsPc : Prop :=
  ∀ (ops : List Byte) (s : State),
    exec (.ret ops) s = .next { latched ops s with pc := s.memRead (s.readReg 7), x := s.x.set 7 (s.readReg 7 + 1) }

/-- After CALL, a RET that finds the same SP and the same byte there continues after the CALL, with SP as before the CALL
(R102, R103, which the spec marks as derived). -/
def Obligations.CallThenRetReturns : Prop :=
  ∀ (ops ops' : List Byte) (s : State) (ra : RegIndex), Names (opaOf ops s) ra → s.hb.val + 1 < (s.readReg 7).toNat →
    ∃ t, exec (.call ops) s = .next t ∧ t.pc = s.readReg ra ∧
      ∀ u, u.readReg 7 = t.readReg 7 → u.memRead (u.readReg 7) = t.memRead (t.readReg 7) →
        ∃ v, exec (.ret ops') u = .next v ∧ v.pc = afterInstr ops s ∧ v.readReg 7 = s.readReg 7

/-- PUSH stores the register at the decremented SP, reading it after SP is decremented; when the decremented SP would be
at or below HB it raises StackOverflow with SP and memory unchanged (R100, R104; the unwrapped comparison is the spec's
D10, the order of PUSH R7 its D19). -/
def Obligations.PushStoresRegister : Prop :=
  ∀ (ops : List Byte) (s : State) (ra : RegIndex), Names (opaOf ops s) ra →
    (s.hb.val + 1 < (s.readReg 7).toNat →
      StoresByte (.push ops) s { advanced ops s with x := s.x.set 7 (s.readReg 7 - 1) }
        (s.readReg 7 - 1) (if ra = 7 then s.readReg 7 - 1 else s.readReg ra)) ∧
    ((s.readReg 7).toNat ≤ s.hb.val + 1 →
      exec (.push ops) s = .next { advanced ops s with run := .fault, record := some ⟨.stackOverflow, s.pc⟩ })

/-- POP writes the byte at SP to the register and then increments SP modulo 256; POP R7 leaves SP one above the byte
(R101, R105; no underflow check is the spec's D11, the order of POP R7 its D19). -/
def Obligations.PopLoadsRegister : Prop :=
  ∀ (ops : List Byte) (s : State) (ra : RegIndex), Names (opaOf ops s) ra →
    (ra ≠ 7 → exec (.pop ops) s = .next { advanced ops s with
      x := (s.x.set ra.val (s.memRead (s.readReg 7))).set 7 (s.readReg 7 + 1) }) ∧
    (ra = 7 → exec (.pop ops) s = .next { advanced ops s with x := s.x.set 7 (s.memRead (s.readReg 7) + 1) })

/-- PUSH Rk then POP Rk leaves every register, SP among them, as before the PUSH, for every k including 7 (R105, which the
spec marks as derived). -/
def Obligations.PushThenPopRestores : Prop :=
  ∀ (ops ops' : List Byte) (s : State) (ra : RegIndex), Names (opaOf ops s) ra → s.hb.val + 1 < (s.readReg 7).toNat →
    ∃ t, exec (.push ops) s = .next t ∧
      (Names (opaOf ops' t) ra → ∃ u, exec (.pop ops') t = .next u ∧ u.x = s.x)

/-- From any SP above HB, exactly SP - 1 - HB pushes succeed and the next raises StackOverflow; a CORE at the reset SP
can push 0xF3 - HB times (R100, which the spec marks as derived; D10). -/
def Obligations.PushesUntilHeapBoundary : Prop :=
  ∀ (a : Byte) (s : State) (ra : RegIndex) (k : Nat), Names a ra → s.run = .running → k + s.hb.val + 1 ≤ (s.readReg 7).toNat →
    ∃ t, pushTimes [a] k s = .next t ∧ t.run = .running ∧ (t.readReg 7).toNat + k = (s.readReg 7).toNat ∧
      (k + s.hb.val + 1 = (s.readReg 7).toNat → Raises (.push [a]) t .stackOverflow)

/-! ### Data and output -/

/-- R107: LDI writes the immediate, unchecked and unchanged, to the register; no memory access (the opcode byte is the
spec's D1, the register check its D2). -/
def Obligations.LoadImmediate : Prop :=
  (∀ (ops : List Byte) (s : State) (ra : RegIndex), Names (opaOf ops s) ra → WritesReg (.ldi ops) s ra (opbOf ops s)) ∧
  (∀ (ops : List Byte) (s : State), NamesNone (opaOf ops s) → Raises (.ldi ops) s .illegalRegister) ∧
  TwoOperands .ldi 0x82

/-- LD loads x[ra] from the address in x[rb]; ST stores x[rb] at the address in x[ra] and writes no register (R108, R109;
the operand roles are the spec's D3, the wrap of pc its D6). -/
def Obligations.LoadAndStore : Prop :=
  ∀ (ops : List Byte) (s : State) (ra rb : RegIndex), Names (opaOf ops s) ra → Names (opbOf ops s) rb →
    exec (.ld ops) s = .next { advanced ops s with x := s.x.set ra.val (s.memRead (s.readReg rb)) } ∧
    StoresByte (.st ops) s (advanced ops s) (s.readReg ra) (s.readReg rb)

/-- A byte stored where the next instruction stands is the opcode byte the next step fetches (R45, which the spec marks as
derived; R138). -/
def Obligations.StoreSeenByNextFetch : Prop :=
  ∀ (ops : List Byte) (s : State) (ra rb : RegIndex), Names (opaOf ops s) ra → Names (opbOf ops s) rb →
    s.run = .running → afterInstr ops s = s.readReg ra →
    ∃ t u, exec (.st ops) s = .next t ∧ step t = .next u ∧ u.ir = s.readReg rb

/-- PRN appends the unsigned decimal representation of x[ra], PRA the character whose code is the byte at the address in
x[ra] (R110, R111, R112; the digit form is the spec's K6, the wrap of pc its D6). -/
def Obligations.PrintAppendsOutput : Prop :=
  ∀ (ops : List Byte) (s : State) (ra : RegIndex), Names (opaOf ops s) ra →
    (∃ t, exec (.prn ops) s = .next t ∧ t = { advanced ops s with output := s.output ++ [.dec (s.readReg ra)] } ∧
      t.outputBytes = s.outputBytes ++
        (Nat.toDigits 10 (s.readReg ra).toNat).map fun c => BitVec.ofNat 8 c.toNat) ∧
    (∃ t, exec (.pra ops) s = .next t ∧
      t = { advanced ops s with output := s.output ++ [.char (s.memRead (s.readReg ra))] } ∧
      t.outputBytes = s.outputBytes ++ [s.memRead (s.readReg ra)])

/-- The output stream is append-only and only PRN and PRA append to it, one event each; HB never changes in a step (R27,
R110; HB is constant during a run by the spec's D9). -/
def Obligations.OutputIsAppendOnly : Prop :=
  ∀ s t : State, step s = .next t →
    t.hb = s.hb ∧ (∃ e, t.output = s.output ++ e ∧ e.length ≤ 1 ∧
      t.outputBytes = s.outputBytes ++ e.flatMap OutEvent.bytes) ∧
    ((∀ i rest, decode s.fetchBytes = .ok (i, rest) → isPrint i = false) → t.output = s.output)

/-! ### System -/

/-- R114: NOP has no effect but the loop's; the aliases 0x40 and 0x80 are NOPs of 2 and 3 bytes that load the latches; a
memory full of 0x00 runs as NOPs for ever (the opcode bytes are the spec's D1, the aliases its D13, the wrap its D6). -/
def Obligations.NopOnlyAdvances : Prop :=
  (∀ (ops : List Byte) (s : State), exec (.nop ops) s = .next (advanced ops s)) ∧
  decode [0x00] = .ok (.nop [], []) ∧
  (∀ a b : Byte, decode [0x40, a] = .ok (.nop [a], []) ∧ decode [0x80, a, b] = .ok (.nop [a, b], [])) ∧
  (∀ s : State, s.run = .running → (∀ a, s.memRead a = 0x00) → step s = .next { s with ir := 0x00, pc := s.pc + 1 })

/-- HLT halts with pc past the instruction; every register, FL and memory keep their values (R113, where the spec marks pc
as derived). -/
def Obligations.HltHalts : Prop :=
  ∀ (ops : List Byte) (s : State), exec (.hlt ops) s = .next { advanced ops s with run := .halted }

/-- INT and IRET advance pc and do nothing else; INT's operand byte is not checked (R115, R116, the spec's D5). -/
def Obligations.IntIretOnlyAdvance : Prop :=
  ∀ (ops : List Byte) (s : State),
    exec (.int ops) s = .next (advanced ops s) ∧ exec (.iret ops) s = .next (advanced ops s)

/-! ### Faults -/

/-- Every operand the format names as a register is checked before the handler, on every path: a byte of 8 or more raises
IllegalRegister, with the loop's part of the step standing and nothing else written (R54, R73, R120, R124; the check is the
spec's D2 and D17). -/
def Obligations.IllegalRegisterRaised : Prop :=
  ∀ (i : Instr) (s : State),
    (namesRa i = true ∧ NamesNone (opaOf i.operands s)) ∨ (namesRb i = true ∧ NamesNone (opbOf i.operands s)) →
    exec i s = .next { (if i.row.manualPc then latched i.operands s else advanced i.operands s) with
      run := .fault, record := some ⟨.illegalRegister, s.pc⟩ }

/-- Which cause an instruction raises, in the order of the checks, and that it raises none otherwise; the four codes (R118,
R123; the codes are the spec's D8, the order its D20). -/
def Obligations.CausesAndPriority : Prop :=
  (∀ (i : Instr) (s t : State) (c : Cause), causeOf i s = some c → exec i s = .next t →
    t.run = .fault ∧ t.record = some ⟨c, s.pc⟩) ∧
  (∀ (i : Instr) (s t : State), causeOf i s = none → exec i s = .next t →
    t.record = s.record ∧ (t.run = s.run ∨ t.run = .halted)) ∧
  Cause.code .unknownOpcode = 1 ∧ Cause.code .stackOverflow = 2 ∧ Cause.code .divisionByZero = 3 ∧
  Cause.code .illegalRegister = 4

/-- Fault entry is precise: a step that enters FAULT writes no register, no FL bit, no memory byte and no output; IR holds
the fetched byte, the latches the operand bytes read, fpc the opcode byte's address; pc is past the instruction when P = 0
and unchanged for UnknownOpcode and P = 1 (R124, partly marked by the spec as derived and as D8). -/
def Obligations.FaultEntryIsPrecise : Prop :=
  ∀ s t : State, step s = .next t → t.run = .fault →
    (∃ c, t = { s with ir := s.memRead s.pc, opa := t.opa, opb := t.opb, pc := t.pc, run := .fault,
                       record := some ⟨c, s.pc⟩ }) ∧
    (∀ why, decode s.fetchBytes = .error why → t.pc = s.pc ∧ t.opa = s.opa ∧ t.opb = s.opb) ∧
    (∀ i rest, decode s.fetchBytes = .ok (i, rest) →
      t.opa = opaOf i.operands s ∧ t.opb = opbOf i.operands s ∧
      t.pc = if i.row.manualPc then s.pc else afterInstr i.operands s)

/-! ### Frames -/

/-- An instruction changes no register but those the reader-and-writer table gives it (R16, its writes). -/
def Obligations.RegistersWritten : Prop :=
  ∀ (i : Instr) (s t : State) (r : RegIndex), exec i s = .next t → ¬ mayWrite i s r → t.readReg r = s.readReg r

/-- An instruction changes no byte of memory but the one at the address the access table gives it: ST at x[ra], PUSH and
CALL at the decremented SP, the others none (R33, its writes; R43). -/
def Obligations.MemoryWritten : Prop :=
  ∀ (i : Instr) (s t : State) (a : Byte), exec i s = .next t → storeAddress i s ≠ some a → t.memRead a = s.memRead a

/-- An instruction depends on no byte of memory but the one at the address the access table gives it: LD at x[rb], PRA at
x[ra], POP and RET at SP, the others none (R33, its reads; R43). -/
def Obligations.MemoryRead : Prop :=
  ∀ (i : Instr) (s t : State) (m : Memory), exec i s = .next t →
    (∀ a, loadAddress i s = some a → m.read a.toNat = s.memRead a) →
    ∃ u, exec i { s with mem := m } = .next u ∧ u = { t with mem := u.mem }

/-- A memory read returns the latest write to its address, and a write changes no other address (R32, R41; the interface
is the spec's D15). -/
def Obligations.MemoryReadsLatestWrite : Prop :=
  ∀ (s : State) (a b v : Byte),
    (s.memWrite a v).memRead b = (if b = a then v else s.memRead b) ∧ s.memWrite a v = { s with mem := (s.memWrite a v).mem }

/-! ### Reset and host -/

/-- The reset input puts CORE state at its reset values, whatever the unspecified latches take, and changes neither memory
nor HB nor the output stream; State.reset is such a state (R29, R132, R133; R0 to R6 and FL are the spec's D7, the rest of
the environment its D25). -/
def Obligations.ResetSetsCoreState : Prop :=
  (∀ (s : State) (ir opa opb : Byte),
    s.resetCore ir opa opb = { s with
      x := #v[0x00, 0x00, 0x00, 0x00, 0x00, 0x00, 0x00, 0xF4], pc := 0x00, fl := 0x00, ir := ir, opa := opa, opb := opb,
      run := .running, record := none }) ∧
  ∃ ir opa opb, State.reset = State.reset.resetCore ir opa opb

/-- R134: after reset the CORE is RUNNING and the first step fetches at address 0x00. -/
def Obligations.FirstFetchAfterReset : Prop :=
  ∀ (s : State) (ir opa opb : Byte),
    (s.resetCore ir opa opb).run = .running ∧ (s.resetCore ir opa opb).pc = 0x00 ∧
    ∃ t, step (s.resetCore ir opa opb) = .next t ∧ t.ir = s.memRead 0x00

/-- Loading an image of N bytes, N at most 256, puts them at addresses 0 to N - 1, sets HB to N and leaves every other byte
and all CORE state as they were; a longer image does not fit (R27, R135; the bytes beyond the image are the spec's open
MEM_INIT, D26; that a longer image is not loaded is the model's reading of 0 ≤ N ≤ 256, log entry 10). -/
def Obligations.LoadImagePlacesBytes : Prop :=
  (∀ (s : State) (image : List Byte), image.length ≤ 256 →
    ∃ t, s.loadImage image = some t ∧ t = { s with mem := t.mem, hb := t.hb } ∧ t.hb.val = image.length ∧
      (∀ (k : Nat) (h : k < image.length), t.memRead (BitVec.ofNat 8 k) = image[k]) ∧
      (∀ k : Nat, image.length ≤ k → k < 256 → t.memRead (BitVec.ofNat 8 k) = s.memRead (BitVec.ofNat 8 k))) ∧
  (∀ (s : State) (image : List Byte), 256 < image.length → s.loadImage image = none)

/-- In every state the host reads run, and the fault record in FAULT and in no other; registers, pc, FL and memory exactly
once the CORE has stopped; and a step into FAULT shows it the cause and the faulting address (R128, the spec's D8). -/
def Obligations.HostObserves : Prop :=
  (∀ s : State, s.status.run = s.run ∧ s.status.record = if s.run = .fault then s.record else none) ∧
  (∀ s : State, s.stoppedView = if s.run = .running then none else some ⟨s.x, s.pc, s.fl, s.mem⟩) ∧
  (∀ s t : State, step s = .next t → t.run = .fault → ∃ c, t.status = ⟨.fault, some ⟨c, s.pc⟩⟩)

/-! ### Invariants -/

/-- Every step keeps the invariant: memory in canonical form, FL without flag or with exactly one and bits 7 to 3 clear,
a fault record exactly in FAULT (R21, R25; the canonical form is the model's, log entry 9). -/
def Obligations.StepKeepsInvariant : Prop :=
  ∀ s t : State, s.Inv → step s = .next t → t.Inv

/-- The reset state meets the invariant, and so does the reset input at every state whose memory is in canonical form, and
loading an image there (R29, R135; the canonical form of memory is the model's choice, log entry 9, and the empty memory,
HB = 0 and empty output of State.reset are log entry 3). -/
def Obligations.ResetMeetsInvariant : Prop :=
  State.reset.Inv ∧ (∀ (s : State) (ir opa opb : Byte), s.mem.wf = true → (s.resetCore ir opa opb).Inv) ∧
  (∀ (s t : State) (image : List Byte), s.Inv → s.loadImage image = some t → t.Inv)
end

