-- ==== Sys2Proof/Laws/PerInstr.lean ====
section
/-! SUPPORT. Per instruction: the dispatch table and the opcode map agree. -/

namespace Sys2Proof.Laws

/-- The triple of the instruction's row selects the handler that rebuilds the instruction from its operand bytes, and the
row's canonical count has an encoding (R52, R53). -/
def KeySelectsInstr.Statement (i : Instr) : Prop :=
  (∃ handler, dispatch i.row.alu i.row.manualPc i.row.index = some handler ∧ handler i.operands = i) ∧ i.row.count ≤ 2

theorem KeySelectsInstr.nop (ops : List Byte) : KeySelectsInstr.Statement (.nop ops) := ⟨⟨_, rfl, rfl⟩, by simp [Instr.row]⟩
theorem KeySelectsInstr.hlt (ops : List Byte) : KeySelectsInstr.Statement (.hlt ops) := ⟨⟨_, rfl, rfl⟩, by simp [Instr.row]⟩
theorem KeySelectsInstr.ldi (ops : List Byte) : KeySelectsInstr.Statement (.ldi ops) := ⟨⟨_, rfl, rfl⟩, by simp [Instr.row]⟩
theorem KeySelectsInstr.ld (ops : List Byte) : KeySelectsInstr.Statement (.ld ops) := ⟨⟨_, rfl, rfl⟩, by simp [Instr.row]⟩
theorem KeySelectsInstr.st (ops : List Byte) : KeySelectsInstr.Statement (.st ops) := ⟨⟨_, rfl, rfl⟩, by simp [Instr.row]⟩
theorem KeySelectsInstr.push (ops : List Byte) : KeySelectsInstr.Statement (.push ops) := ⟨⟨_, rfl, rfl⟩, by simp [Instr.row]⟩
theorem KeySelectsInstr.pop (ops : List Byte) : KeySelectsInstr.Statement (.pop ops) := ⟨⟨_, rfl, rfl⟩, by simp [Instr.row]⟩
theorem KeySelectsInstr.prn (ops : List Byte) : KeySelectsInstr.Statement (.prn ops) := ⟨⟨_, rfl, rfl⟩, by simp [Instr.row]⟩
theorem KeySelectsInstr.pra (ops : List Byte) : KeySelectsInstr.Statement (.pra ops) := ⟨⟨_, rfl, rfl⟩, by simp [Instr.row]⟩
theorem KeySelectsInstr.call (ops : List Byte) : KeySelectsInstr.Statement (.call ops) := ⟨⟨_, rfl, rfl⟩, by simp [Instr.row]⟩
theorem KeySelectsInstr.ret (ops : List Byte) : KeySelectsInstr.Statement (.ret ops) := ⟨⟨_, rfl, rfl⟩, by simp [Instr.row]⟩
theorem KeySelectsInstr.int (ops : List Byte) : KeySelectsInstr.Statement (.int ops) := ⟨⟨_, rfl, rfl⟩, by simp [Instr.row]⟩
theorem KeySelectsInstr.iret (ops : List Byte) : KeySelectsInstr.Statement (.iret ops) := ⟨⟨_, rfl, rfl⟩, by simp [Instr.row]⟩
theorem KeySelectsInstr.jmp (ops : List Byte) : KeySelectsInstr.Statement (.jmp ops) := ⟨⟨_, rfl, rfl⟩, by simp [Instr.row]⟩
theorem KeySelectsInstr.jeq (ops : List Byte) : KeySelectsInstr.Statement (.jeq ops) := ⟨⟨_, rfl, rfl⟩, by simp [Instr.row]⟩
theorem KeySelectsInstr.jne (ops : List Byte) : KeySelectsInstr.Statement (.jne ops) := ⟨⟨_, rfl, rfl⟩, by simp [Instr.row]⟩
theorem KeySelectsInstr.jgt (ops : List Byte) : KeySelectsInstr.Statement (.jgt ops) := ⟨⟨_, rfl, rfl⟩, by simp [Instr.row]⟩
theorem KeySelectsInstr.jlt (ops : List Byte) : KeySelectsInstr.Statement (.jlt ops) := ⟨⟨_, rfl, rfl⟩, by simp [Instr.row]⟩
theorem KeySelectsInstr.jle (ops : List Byte) : KeySelectsInstr.Statement (.jle ops) := ⟨⟨_, rfl, rfl⟩, by simp [Instr.row]⟩
theorem KeySelectsInstr.jge (ops : List Byte) : KeySelectsInstr.Statement (.jge ops) := ⟨⟨_, rfl, rfl⟩, by simp [Instr.row]⟩
theorem KeySelectsInstr.add (ops : List Byte) : KeySelectsInstr.Statement (.add ops) := ⟨⟨_, rfl, rfl⟩, by simp [Instr.row]⟩
theorem KeySelectsInstr.sub (ops : List Byte) : KeySelectsInstr.Statement (.sub ops) := ⟨⟨_, rfl, rfl⟩, by simp [Instr.row]⟩
theorem KeySelectsInstr.mul (ops : List Byte) : KeySelectsInstr.Statement (.mul ops) := ⟨⟨_, rfl, rfl⟩, by simp [Instr.row]⟩
theorem KeySelectsInstr.div (ops : List Byte) : KeySelectsInstr.Statement (.div ops) := ⟨⟨_, rfl, rfl⟩, by simp [Instr.row]⟩
theorem KeySelectsInstr.mod (ops : List Byte) : KeySelectsInstr.Statement (.mod ops) := ⟨⟨_, rfl, rfl⟩, by simp [Instr.row]⟩
theorem KeySelectsInstr.inc (ops : List Byte) : KeySelectsInstr.Statement (.inc ops) := ⟨⟨_, rfl, rfl⟩, by simp [Instr.row]⟩
theorem KeySelectsInstr.dec (ops : List Byte) : KeySelectsInstr.Statement (.dec ops) := ⟨⟨_, rfl, rfl⟩, by simp [Instr.row]⟩
theorem KeySelectsInstr.cmp (ops : List Byte) : KeySelectsInstr.Statement (.cmp ops) := ⟨⟨_, rfl, rfl⟩, by simp [Instr.row]⟩
theorem KeySelectsInstr.and (ops : List Byte) : KeySelectsInstr.Statement (.and ops) := ⟨⟨_, rfl, rfl⟩, by simp [Instr.row]⟩
theorem KeySelectsInstr.not (ops : List Byte) : KeySelectsInstr.Statement (.not ops) := ⟨⟨_, rfl, rfl⟩, by simp [Instr.row]⟩
theorem KeySelectsInstr.or (ops : List Byte) : KeySelectsInstr.Statement (.or ops) := ⟨⟨_, rfl, rfl⟩, by simp [Instr.row]⟩
theorem KeySelectsInstr.xor (ops : List Byte) : KeySelectsInstr.Statement (.xor ops) := ⟨⟨_, rfl, rfl⟩, by simp [Instr.row]⟩
theorem KeySelectsInstr.shl (ops : List Byte) : KeySelectsInstr.Statement (.shl ops) := ⟨⟨_, rfl, rfl⟩, by simp [Instr.row]⟩
theorem KeySelectsInstr.shr (ops : List Byte) : KeySelectsInstr.Statement (.shr ops) := ⟨⟨_, rfl, rfl⟩, by simp [Instr.row]⟩

/-- The same for every instruction. -/
theorem keySelectsInstr (i : Instr) :
    ∃ handler, dispatch i.row.alu i.row.manualPc i.row.index = some handler ∧ handler i.operands = i := by
  cases i with
  | nop ops => exact (KeySelectsInstr.nop ops).1
  | hlt ops => exact (KeySelectsInstr.hlt ops).1
  | ldi ops => exact (KeySelectsInstr.ldi ops).1
  | ld ops => exact (KeySelectsInstr.ld ops).1
  | st ops => exact (KeySelectsInstr.st ops).1
  | push ops => exact (KeySelectsInstr.push ops).1
  | pop ops => exact (KeySelectsInstr.pop ops).1
  | prn ops => exact (KeySelectsInstr.prn ops).1
  | pra ops => exact (KeySelectsInstr.pra ops).1
  | call ops => exact (KeySelectsInstr.call ops).1
  | ret ops => exact (KeySelectsInstr.ret ops).1
  | int ops => exact (KeySelectsInstr.int ops).1
  | iret ops => exact (KeySelectsInstr.iret ops).1
  | jmp ops => exact (KeySelectsInstr.jmp ops).1
  | jeq ops => exact (KeySelectsInstr.jeq ops).1
  | jne ops => exact (KeySelectsInstr.jne ops).1
  | jgt ops => exact (KeySelectsInstr.jgt ops).1
  | jlt ops => exact (KeySelectsInstr.jlt ops).1
  | jle ops => exact (KeySelectsInstr.jle ops).1
  | jge ops => exact (KeySelectsInstr.jge ops).1
  | add ops => exact (KeySelectsInstr.add ops).1
  | sub ops => exact (KeySelectsInstr.sub ops).1
  | mul ops => exact (KeySelectsInstr.mul ops).1
  | div ops => exact (KeySelectsInstr.div ops).1
  | mod ops => exact (KeySelectsInstr.mod ops).1
  | inc ops => exact (KeySelectsInstr.inc ops).1
  | dec ops => exact (KeySelectsInstr.dec ops).1
  | cmp ops => exact (KeySelectsInstr.cmp ops).1
  | and ops => exact (KeySelectsInstr.and ops).1
  | not ops => exact (KeySelectsInstr.not ops).1
  | or ops => exact (KeySelectsInstr.or ops).1
  | xor ops => exact (KeySelectsInstr.xor ops).1
  | shl ops => exact (KeySelectsInstr.shl ops).1
  | shr ops => exact (KeySelectsInstr.shr ops).1

end Sys2Proof.Laws
end

