-- ==== Sys2Proof/Laws/Decode.lean ====
section
/-! SUPPORT. The fields of an encoded opcode byte, and the bytes a fetch reads. -/

namespace Sys2Proof

/-- The fields of an opcode byte built from a count and a triple are that count and triple (R48). -/
theorem opcodeByte_fields (count : Nat) (row : OpcodeRow) (hc : count < 4) (hi : row.index < 16) :
    countField (opcodeByte count row) = count ∧ aluFlag (opcodeByte count row) = row.alu ∧
    manualPcFlag (opcodeByte count row) = row.manualPc ∧ indexField (opcodeByte count row) = row.index := by
  obtain ⟨c, alu, manual, index⟩ := row
  have table : ∀ (n : Fin 4) (k : Fin 16) (a m : Bool),
      countField (BitVec.ofNat 8 (n * 64 + a.toNat * 32 + m.toNat * 16 + k)) = n.val ∧
      aluFlag (BitVec.ofNat 8 (n * 64 + a.toNat * 32 + m.toNat * 16 + k)) = a ∧
      manualPcFlag (BitVec.ofNat 8 (n * 64 + a.toNat * 32 + m.toNat * 16 + k)) = m ∧
      indexField (BitVec.ofNat 8 (n * 64 + a.toNat * 32 + m.toNat * 16 + k)) = k.val := by decide
  exact table ⟨count, hc⟩ ⟨index, hi⟩ alu manual

/-- An opcode byte is its own fields put together again: no bit of it is dropped (R48). -/
theorem opcodeByte_of_fields (b : Byte) (c : Nat) :
    opcodeByte (countField b) ⟨c, aluFlag b, manualPcFlag b, indexField b⟩ = b := by
  have table : ∀ b : Byte, BitVec.ofNat 8
      (countField b * 64 + (aluFlag b).toNat * 32 + (manualPcFlag b).toNat * 16 + indexField b) = b := by decide
  exact table b

/-- A handler the dispatch table finds builds an instruction of that triple, with the operand bytes it is given. -/
theorem dispatch_row {alu manual : Bool} {index : Nat} {handler : List Byte → Instr}
    (h : dispatch alu manual index = some handler) (ops : List Byte) :
    (handler ops).row.alu = alu ∧ (handler ops).row.manualPc = manual ∧ (handler ops).row.index = index ∧
    (handler ops).operands = ops := by
  unfold dispatch at h
  split at h <;> cases h <;> exact ⟨rfl, rfl, rfl, rfl⟩

theorem row_index_lt (i : Instr) : i.row.index < 16 := by
  cases i <;> simp [Instr.row]

/-- What the opcode byte of an encoded instruction says by itself (R66). -/
theorem decodeOpcode_encoded (i : Instr) (h : i.wf = true) :
    ∃ handler, decodeOpcode (opcodeByte i.operands.length i.row) = .ok (i.operands.length, handler) ∧
      handler i.operands = i := by
  have len : i.operands.length ≤ 2 := by simpa [Instr.wf] using h
  obtain ⟨hc, ha, hm, hi⟩ := opcodeByte_fields i.operands.length i.row (by omega) (row_index_lt i)
  obtain ⟨handler, hd, hh⟩ := Laws.keySelectsInstr i
  refine ⟨handler, ?_, hh⟩
  have : ¬ i.operands.length = 3 := by omega
  simp only [decodeOpcode, hc, ha, hm, hi, this, ite_false, hd]

namespace Machine

theorem bytesAt_length (s : State) (a : Byte) (n : Nat) : (s.bytesAt a n).length = n := by
  induction n generalizing a with
  | zero => rfl
  | succ n ih => simp [State.bytesAt, ih]

/-- The k-th byte read from an address on is the one at that address plus k, modulo 256 (R36). -/
theorem bytesAt_getElem (s : State) (a : Byte) (n k : Nat) (h : k < (s.bytesAt a n).length) :
    (s.bytesAt a n)[k] = s.memRead (a + BitVec.ofNat 8 k) := by
  induction n generalizing a k with
  | zero => simp [State.bytesAt] at h
  | succ n ih =>
    cases k with
    | zero => simp [State.bytesAt]
    | succ k =>
      have := ih (a + 1) k (by simpa [State.bytesAt] using h)
      simp only [State.bytesAt, List.getElem_cons_succ, this]
      congr 1
      rw [BitVec.add_assoc, Nat.add_comm k 1, BitVec.ofNat_add]
      rfl

end Machine

end Sys2Proof
end

