-- ==== Sys2Proof/Laws/State.lean ====
section
/-! SUPPORT. One lemma per field per update of the state, all true by rfl, so that no later proof unfolds a record
update; and what a register or memory read gives after an update that leaves registers or memory alone. -/

namespace Sys2Proof.Machine

variable (s : State)

@[simp] theorem writeReg_x (r : RegIndex) (v : Byte) : (s.writeReg r v).x = s.x.set r.val v := rfl
@[simp] theorem writeReg_pc (r : RegIndex) (v : Byte) : (s.writeReg r v).pc = s.pc := rfl
@[simp] theorem writeReg_fl (r : RegIndex) (v : Byte) : (s.writeReg r v).fl = s.fl := rfl
@[simp] theorem writeReg_ir (r : RegIndex) (v : Byte) : (s.writeReg r v).ir = s.ir := rfl
@[simp] theorem writeReg_opa (r : RegIndex) (v : Byte) : (s.writeReg r v).opa = s.opa := rfl
@[simp] theorem writeReg_opb (r : RegIndex) (v : Byte) : (s.writeReg r v).opb = s.opb := rfl
@[simp] theorem writeReg_run (r : RegIndex) (v : Byte) : (s.writeReg r v).run = s.run := rfl
@[simp] theorem writeReg_record (r : RegIndex) (v : Byte) : (s.writeReg r v).record = s.record := rfl
@[simp] theorem writeReg_mem (r : RegIndex) (v : Byte) : (s.writeReg r v).mem = s.mem := rfl
@[simp] theorem writeReg_hb (r : RegIndex) (v : Byte) : (s.writeReg r v).hb = s.hb := rfl
@[simp] theorem writeReg_output (r : RegIndex) (v : Byte) : (s.writeReg r v).output = s.output := rfl

@[simp] theorem setSp_x (v : Byte) : (s.setSp v).x = s.x.set 7 v := rfl
@[simp] theorem setSp_pc (v : Byte) : (s.setSp v).pc = s.pc := rfl
@[simp] theorem setSp_fl (v : Byte) : (s.setSp v).fl = s.fl := rfl
@[simp] theorem setSp_ir (v : Byte) : (s.setSp v).ir = s.ir := rfl
@[simp] theorem setSp_opa (v : Byte) : (s.setSp v).opa = s.opa := rfl
@[simp] theorem setSp_opb (v : Byte) : (s.setSp v).opb = s.opb := rfl
@[simp] theorem setSp_run (v : Byte) : (s.setSp v).run = s.run := rfl
@[simp] theorem setSp_record (v : Byte) : (s.setSp v).record = s.record := rfl
@[simp] theorem setSp_mem (v : Byte) : (s.setSp v).mem = s.mem := rfl
@[simp] theorem setSp_hb (v : Byte) : (s.setSp v).hb = s.hb := rfl
@[simp] theorem setSp_output (v : Byte) : (s.setSp v).output = s.output := rfl

@[simp] theorem setPc_x (a : Byte) : (s.setPc a).x = s.x := rfl
@[simp] theorem setPc_pc (a : Byte) : (s.setPc a).pc = a := rfl
@[simp] theorem setPc_fl (a : Byte) : (s.setPc a).fl = s.fl := rfl
@[simp] theorem setPc_ir (a : Byte) : (s.setPc a).ir = s.ir := rfl
@[simp] theorem setPc_opa (a : Byte) : (s.setPc a).opa = s.opa := rfl
@[simp] theorem setPc_opb (a : Byte) : (s.setPc a).opb = s.opb := rfl
@[simp] theorem setPc_run (a : Byte) : (s.setPc a).run = s.run := rfl
@[simp] theorem setPc_record (a : Byte) : (s.setPc a).record = s.record := rfl
@[simp] theorem setPc_mem (a : Byte) : (s.setPc a).mem = s.mem := rfl
@[simp] theorem setPc_hb (a : Byte) : (s.setPc a).hb = s.hb := rfl
@[simp] theorem setPc_output (a : Byte) : (s.setPc a).output = s.output := rfl

@[simp] theorem memWrite_x (a v : Byte) : (s.memWrite a v).x = s.x := rfl
@[simp] theorem memWrite_pc (a v : Byte) : (s.memWrite a v).pc = s.pc := rfl
@[simp] theorem memWrite_fl (a v : Byte) : (s.memWrite a v).fl = s.fl := rfl
@[simp] theorem memWrite_ir (a v : Byte) : (s.memWrite a v).ir = s.ir := rfl
@[simp] theorem memWrite_opa (a v : Byte) : (s.memWrite a v).opa = s.opa := rfl
@[simp] theorem memWrite_opb (a v : Byte) : (s.memWrite a v).opb = s.opb := rfl
@[simp] theorem memWrite_run (a v : Byte) : (s.memWrite a v).run = s.run := rfl
@[simp] theorem memWrite_record (a v : Byte) : (s.memWrite a v).record = s.record := rfl
@[simp] theorem memWrite_mem (a v : Byte) : (s.memWrite a v).mem = s.mem.write a.toNat v := rfl
@[simp] theorem memWrite_hb (a v : Byte) : (s.memWrite a v).hb = s.hb := rfl
@[simp] theorem memWrite_output (a v : Byte) : (s.memWrite a v).output = s.output := rfl

@[simp] theorem emit_x (e : OutEvent) : (s.emit e).x = s.x := rfl
@[simp] theorem emit_pc (e : OutEvent) : (s.emit e).pc = s.pc := rfl
@[simp] theorem emit_fl (e : OutEvent) : (s.emit e).fl = s.fl := rfl
@[simp] theorem emit_ir (e : OutEvent) : (s.emit e).ir = s.ir := rfl
@[simp] theorem emit_opa (e : OutEvent) : (s.emit e).opa = s.opa := rfl
@[simp] theorem emit_opb (e : OutEvent) : (s.emit e).opb = s.opb := rfl
@[simp] theorem emit_run (e : OutEvent) : (s.emit e).run = s.run := rfl
@[simp] theorem emit_record (e : OutEvent) : (s.emit e).record = s.record := rfl
@[simp] theorem emit_mem (e : OutEvent) : (s.emit e).mem = s.mem := rfl
@[simp] theorem emit_hb (e : OutEvent) : (s.emit e).hb = s.hb := rfl
@[simp] theorem emit_output (e : OutEvent) : (s.emit e).output = s.output ++ [e] := rfl

@[simp] theorem raise_x (c : Cause) (fpc : Byte) : (s.raise c fpc).x = s.x := rfl
@[simp] theorem raise_pc (c : Cause) (fpc : Byte) : (s.raise c fpc).pc = s.pc := rfl
@[simp] theorem raise_fl (c : Cause) (fpc : Byte) : (s.raise c fpc).fl = s.fl := rfl
@[simp] theorem raise_ir (c : Cause) (fpc : Byte) : (s.raise c fpc).ir = s.ir := rfl
@[simp] theorem raise_opa (c : Cause) (fpc : Byte) : (s.raise c fpc).opa = s.opa := rfl
@[simp] theorem raise_opb (c : Cause) (fpc : Byte) : (s.raise c fpc).opb = s.opb := rfl
@[simp] theorem raise_run (c : Cause) (fpc : Byte) : (s.raise c fpc).run = .fault := rfl
@[simp] theorem raise_record (c : Cause) (fpc : Byte) : (s.raise c fpc).record = some ⟨c, fpc⟩ := rfl
@[simp] theorem raise_mem (c : Cause) (fpc : Byte) : (s.raise c fpc).mem = s.mem := rfl
@[simp] theorem raise_hb (c : Cause) (fpc : Byte) : (s.raise c fpc).hb = s.hb := rfl
@[simp] theorem raise_output (c : Cause) (fpc : Byte) : (s.raise c fpc).output = s.output := rfl

@[simp] theorem fetchOpcode_x : s.fetchOpcode.x = s.x := rfl
@[simp] theorem fetchOpcode_pc : s.fetchOpcode.pc = s.pc := rfl
@[simp] theorem fetchOpcode_fl : s.fetchOpcode.fl = s.fl := rfl
@[simp] theorem fetchOpcode_ir : s.fetchOpcode.ir = s.memRead s.pc := rfl
@[simp] theorem fetchOpcode_opa : s.fetchOpcode.opa = s.opa := rfl
@[simp] theorem fetchOpcode_opb : s.fetchOpcode.opb = s.opb := rfl
@[simp] theorem fetchOpcode_run : s.fetchOpcode.run = s.run := rfl
@[simp] theorem fetchOpcode_record : s.fetchOpcode.record = s.record := rfl
@[simp] theorem fetchOpcode_mem : s.fetchOpcode.mem = s.mem := rfl
@[simp] theorem fetchOpcode_hb : s.fetchOpcode.hb = s.hb := rfl
@[simp] theorem fetchOpcode_output : s.fetchOpcode.output = s.output := rfl

@[simp] theorem setPc_readReg (a : Byte) (r : RegIndex) : (s.setPc a).readReg r = s.readReg r := rfl
@[simp] theorem setPc_sp (a : Byte) : (s.setPc a).sp = s.sp := rfl
@[simp] theorem memWrite_readReg (a v : Byte) (r : RegIndex) : (s.memWrite a v).readReg r = s.readReg r := rfl
@[simp] theorem memWrite_sp (a v : Byte) : (s.memWrite a v).sp = s.sp := rfl
@[simp] theorem emit_readReg (e : OutEvent) (r : RegIndex) : (s.emit e).readReg r = s.readReg r := rfl
@[simp] theorem emit_sp (e : OutEvent) : (s.emit e).sp = s.sp := rfl
@[simp] theorem raise_readReg (c : Cause) (fpc : Byte) (r : RegIndex) : (s.raise c fpc).readReg r = s.readReg r := rfl
@[simp] theorem raise_sp (c : Cause) (fpc : Byte) : (s.raise c fpc).sp = s.sp := rfl
@[simp] theorem fetchOpcode_readReg (r : RegIndex) : s.fetchOpcode.readReg r = s.readReg r := rfl
@[simp] theorem fetchOpcode_sp : s.fetchOpcode.sp = s.sp := rfl
@[simp] theorem writeReg_memRead (r : RegIndex) (v : Byte) (k : Byte) : (s.writeReg r v).memRead k = s.memRead k := rfl
@[simp] theorem setSp_memRead (v : Byte) (k : Byte) : (s.setSp v).memRead k = s.memRead k := rfl
@[simp] theorem setPc_memRead (a : Byte) (k : Byte) : (s.setPc a).memRead k = s.memRead k := rfl
@[simp] theorem emit_memRead (e : OutEvent) (k : Byte) : (s.emit e).memRead k = s.memRead k := rfl
@[simp] theorem raise_memRead (c : Cause) (fpc : Byte) (k : Byte) : (s.raise c fpc).memRead k = s.memRead k := rfl
@[simp] theorem fetchOpcode_memRead (k : Byte) : s.fetchOpcode.memRead k = s.memRead k := rfl

/-- A register reads as what was last written to it, and a write leaves the other registers alone. -/
theorem readReg_writeReg (r q : RegIndex) (v : Byte) :
    (s.writeReg r v).readReg q = if q = r then v else s.readReg q := by
  by_cases h : q = r
  · subst h; simp [State.readReg, State.writeReg]
  · have : r.val ≠ q.val := fun e => h (Fin.ext e.symm)
    simp [State.readReg, State.writeReg, h, Vector.getElem_set_ne, this]

@[simp] theorem readReg_writeReg_same (r : RegIndex) (v : Byte) : (s.writeReg r v).readReg r = v := by
  simp [readReg_writeReg]

@[simp] theorem readReg_setSp (q : RegIndex) (v : Byte) :
    (s.setSp v).readReg q = if q = 7 then v else s.readReg q := readReg_writeReg s 7 q v

@[simp] theorem setSp_sp (v : Byte) : (s.setSp v).sp = v := readReg_writeReg_same s 7 v

theorem sp_writeReg (r : RegIndex) (v : Byte) : (s.writeReg r v).sp = if r = 7 then v else s.sp := by
  unfold State.sp
  rw [readReg_writeReg]
  by_cases h : r = 7 <;> simp [h, Config.spIndex, eq_comm]

end Sys2Proof.Machine
end

