-- ==== Sys2Proof/Laws/Memory.lean ====
section
/-! SUPPORT. Memory: a read after a write (for every memory), and that every memory operation keeps the canonical form,
so that equal memories are equal lists. -/

namespace Sys2Proof.Machine

theorem read_erase (m : Memory) (a b : Nat) :
    (m.erase a).read b = if b = a then Config.unlistedByte else m.read b := by
  induction m with
  | nil => simp [Memory.erase, Memory.read]
  | cons c rest ih =>
    obtain ⟨k, w⟩ := c
    have ih' : Memory.read (List.filter (fun c => decide (c.1 ≠ a)) rest) b = _ := ih
    by_cases hk : k = a
    · subst hk
      by_cases hb : k = b
      · subst hb; simpa [Memory.erase] using ih'
      · have : b ≠ k := fun e => hb e.symm
        simpa [Memory.erase, Memory.read, hb, this] using ih'
    · by_cases hb : k = b
      · subst hb; simp [Memory.erase, Memory.read, hk]
      · simpa [Memory.erase, Memory.read, hk, hb] using ih'

theorem read_insert (m : Memory) (a b : Nat) (v : Byte) (absent : ∀ c ∈ m, c.1 ≠ a) :
    (m.insert a v).read b = if b = a then v else m.read b := by
  induction m with
  | nil => by_cases h : a = b <;> simp [Memory.insert, Memory.read, h, eq_comm]
  | cons c rest ih =>
    obtain ⟨k, w⟩ := c
    have hk : k ≠ a := absent (k, w) (by simp)
    have ih := ih fun c hc => absent c (by simp [hc])
    unfold Memory.insert
    split
    · by_cases h : a = b <;> simp [Memory.read, h, eq_comm]
    · by_cases h : k = b
      · subst h; simp [Memory.read, hk]
      · simp [Memory.read, h, ih]

theorem erase_absent (m : Memory) (a : Nat) : ∀ c ∈ m.erase a, c.1 ≠ a := by
  intro c hc
  simpa using (List.mem_filter.mp hc).2

/-- A memory reads as what was last written, and a write leaves every other address alone. -/
theorem read_write (m : Memory) (a b : Nat) (v : Byte) :
    (m.write a v).read b = if b = a then v else m.read b := by
  unfold Memory.write
  split
  · next h => rw [read_erase, h]
  · rw [read_insert _ _ _ _ (erase_absent m a), read_erase]
    split <;> rfl

theorem wfFrom_mono {m : Memory} {low low' : Nat} (le : low' ≤ low) (h : m.wfFrom low = true) : m.wfFrom low' = true := by
  cases m with
  | nil => rfl
  | cons c rest =>
    simp only [Memory.wfFrom, Bool.and_eq_true, decide_eq_true_eq] at h ⊢
    exact ⟨⟨⟨by omega, h.1.1.2⟩, h.1.2⟩, h.2⟩

theorem wfFrom_erase {m : Memory} {low : Nat} (a : Nat) (h : m.wfFrom low = true) : (m.erase a).wfFrom low = true := by
  induction m generalizing low with
  | nil => rfl
  | cons c rest ih =>
    obtain ⟨k, w⟩ := c
    simp only [Memory.wfFrom, Bool.and_eq_true, decide_eq_true_eq] at h
    have ih := ih h.2
    by_cases hk : k = a
    · have : Memory.erase ((k, w) :: rest) a = Memory.erase rest a := by simp [Memory.erase, hk]
      rw [this]
      exact wfFrom_mono (by omega) ih
    · have : Memory.erase ((k, w) :: rest) a = (k, w) :: Memory.erase rest a := by simp [Memory.erase, hk]
      rw [this]
      simp only [Memory.wfFrom, Bool.and_eq_true, decide_eq_true_eq]
      exact ⟨h.1, ih⟩

theorem wfFrom_insert {m : Memory} {low a : Nat} {v : Byte} (ha : a < Config.memorySize) (hl : low ≤ a)
    (hv : v ≠ Config.unlistedByte) (absent : ∀ c ∈ m, c.1 ≠ a) (h : m.wfFrom low = true) :
    (m.insert a v).wfFrom low = true := by
  induction m generalizing low with
  | nil => simp [Memory.insert, Memory.wfFrom, ha, hl, hv]
  | cons c rest ih =>
    obtain ⟨k, w⟩ := c
    have hk : k ≠ a := absent (k, w) (by simp)
    simp only [Memory.wfFrom, Bool.and_eq_true, decide_eq_true_eq] at h
    unfold Memory.insert
    split
    · simp only [Memory.wfFrom, Bool.and_eq_true, decide_eq_true_eq]
      exact ⟨⟨⟨hl, ha⟩, hv⟩, ⟨⟨⟨by omega, h.1.1.2⟩, h.1.2⟩, h.2⟩⟩
    · simp only [Memory.wfFrom, Bool.and_eq_true, decide_eq_true_eq]
      exact ⟨h.1, ih (by omega) (fun c hc => absent c (by simp [hc])) h.2⟩

/-- Writing a byte at an address of the memory keeps the canonical form. -/
theorem wf_write {m : Memory} {a : Nat} (v : Byte) (ha : a < Config.memorySize) (h : m.wf = true) :
    (m.write a v).wf = true := by
  unfold Memory.write
  split
  · exact wfFrom_erase a h
  · next hv => exact wfFrom_insert ha (Nat.zero_le a) hv (erase_absent m a) (wfFrom_erase a h)

theorem memWrite_wf {s : State} (a v : Byte) (h : s.mem.wf = true) : (s.memWrite a v).mem.wf = true :=
  wf_write v a.isLt h

/-- Storing bytes touches memory alone. -/
theorem storeBytes_eq (s : State) (a : Byte) (bytes : List Byte) :
    s.storeBytes a bytes = { s with mem := (s.storeBytes a bytes).mem } := by
  induction bytes generalizing s a with
  | nil => rfl
  | cons v rest ih => exact ih (s.memWrite a v) (a + 1)

theorem storeBytes_wf {s : State} (a : Byte) (bytes : List Byte) (h : s.mem.wf = true) :
    (s.storeBytes a bytes).mem.wf = true := by
  induction bytes generalizing s a with
  | nil => exact h
  | cons v rest ih => exact ih (a + 1) (memWrite_wf a v h)

theorem reset_memory_wf : State.reset.mem.wf = true := rfl

theorem read_below {m : Memory} {low a : Nat} (h : m.wfFrom low = true) (ha : a < low) :
    m.read a = Config.unlistedByte := by
  induction m generalizing low with
  | nil => rfl
  | cons c rest ih =>
    obtain ⟨k, w⟩ := c
    simp only [Memory.wfFrom, Bool.and_eq_true, decide_eq_true_eq] at h
    have : k ≠ a := by omega
    simp [Memory.read, this, ih h.2 (by omega)]

/-- Two memories in canonical form that read alike at every address are the same list. -/
theorem memory_ext {m m' : Memory} {low low' : Nat} (h : m.wfFrom low = true) (h' : m'.wfFrom low' = true)
    (same : ∀ a, m.read a = m'.read a) : m = m' := by
  induction m generalizing low low' m' with
  | nil =>
    cases m' with
    | nil => rfl
    | cons c rest =>
      obtain ⟨k, w⟩ := c
      simp only [Memory.wfFrom, Bool.and_eq_true, decide_eq_true_eq] at h'
      have := same k
      simp [Memory.read] at this
      exact absurd this.symm h'.1.2
  | cons c rest ih =>
    obtain ⟨k, w⟩ := c
    simp only [Memory.wfFrom, Bool.and_eq_true, decide_eq_true_eq] at h
    cases m' with
    | nil =>
      have := same k
      simp [Memory.read] at this
      exact absurd this h.1.2
    | cons c' rest' =>
      obtain ⟨k', w'⟩ := c'
      simp only [Memory.wfFrom, Bool.and_eq_true, decide_eq_true_eq] at h'
      rcases Nat.lt_trichotomy k k' with lt | rfl | lt
      · have := same k
        have ne : k' ≠ k := by omega
        simp only [Memory.read, ite_true, ne, ite_false, read_below h'.2 (show k < k' + 1 by omega)] at this
        exact absurd this h.1.2
      · have hw : w = w' := by simpa [Memory.read] using same k
        subst hw
        have : rest = rest' := by
          refine ih h.2 h'.2 fun a => ?_
          by_cases hk : k = a
          · rw [read_below h.2 (by omega), read_below h'.2 (by omega)]
          · simpa [Memory.read, hk] using same a
        rw [this]
      · have := same k'
        have ne : k ≠ k' := by omega
        simp only [Memory.read, ite_true, ne, ite_false, read_below h.2 (show k' < k + 1 by omega)] at this
        exact absurd this.symm h'.1.2

/-- The byte read after a one-byte store, over the state. -/
theorem memRead_memWrite_same (s : State) (a v : Byte) : (s.memWrite a v).memRead a = v := by
  show (s.mem.write a.toNat v).read a.toNat = v
  simp [read_write]

theorem memRead_memWrite_ne (s : State) {a b : Byte} (v : Byte) (h : b ≠ a) : (s.memWrite a v).memRead b = s.memRead b := by
  show (s.mem.write a.toNat v).read b.toNat = s.mem.read b.toNat
  rw [read_write, if_neg fun e => h (BitVec.eq_of_toNat_eq e)]

end Sys2Proof.Machine
end

