-- ==== Sys2Proof/Laws/Operands.lean ====
section
/-! SUPPORT. What the loop's part of an instruction does: operand fetch, pc auto-advance, the register check, the stack
check; each shared operation with one lemma for its result and one saying everything it can do. -/

namespace Sys2Proof.Machine

theorem wrap8_natCast (n : Nat) : wrap8 (n : Int) = BitVec.ofNat 8 n := by
  simp [wrap8, BitVec.ofInt_natCast]

theorem wrap8_toNat_succ (a : Byte) : wrap8 ((a.toNat : Int) + 1) = a + 1 := by
  have : ((a.toNat : Int) + 1) = ((a.toNat + 1 : Nat) : Int) := by push_cast; rfl
  rw [this, wrap8_natCast, BitVec.ofNat_add, BitVec.ofNat_toNat, BitVec.setWidth_eq]
  rfl

theorem nextPc_eq (s : State) (ops : List Byte) : s.nextPc ops = s.pc + BitVec.ofNat 8 (ops.length + 1) := by
  rw [State.nextPc, wrap8_natCast, Nat.add_assoc, BitVec.ofNat_add, BitVec.ofNat_toNat, BitVec.setWidth_eq]

section Latch
variable (s : State)

@[simp] theorem latch_nil : s.latch [] = s := rfl
@[simp] theorem latch_one (a : Byte) : s.latch [a] = { s with opa := a } := rfl
@[simp] theorem latch_two (a b : Byte) (rest : List Byte) : s.latch (a :: b :: rest) = { s with opa := a, opb := b } := rfl

/-- Operand fetch touches the latches alone. -/
theorem latch_eq (ops : List Byte) : s.latch ops = { s with opa := (s.latch ops).opa, opb := (s.latch ops).opb } := by
  match ops with
  | [] => rfl
  | [_] => rfl
  | _ :: _ :: _ => rfl

variable (ops : List Byte)
@[simp] theorem latch_x : (s.latch ops).x = s.x := by rw [latch_eq]
@[simp] theorem latch_pc : (s.latch ops).pc = s.pc := by rw [latch_eq]
@[simp] theorem latch_fl : (s.latch ops).fl = s.fl := by rw [latch_eq]
@[simp] theorem latch_ir : (s.latch ops).ir = s.ir := by rw [latch_eq]
@[simp] theorem latch_run : (s.latch ops).run = s.run := by rw [latch_eq]
@[simp] theorem latch_record : (s.latch ops).record = s.record := by rw [latch_eq]
@[simp] theorem latch_mem : (s.latch ops).mem = s.mem := by rw [latch_eq]
@[simp] theorem latch_hb : (s.latch ops).hb = s.hb := by rw [latch_eq]
@[simp] theorem latch_output : (s.latch ops).output = s.output := by rw [latch_eq]
@[simp] theorem latch_readReg (r : RegIndex) : (s.latch ops).readReg r = s.readReg r := by simp [State.readReg]
@[simp] theorem latch_sp : (s.latch ops).sp = s.sp := latch_readReg s ops _
@[simp] theorem latch_memRead (a : Byte) : (s.latch ops).memRead a = s.memRead a := by simp [State.memRead]

@[simp] theorem enter_x : (s.enter ops).x = s.x := by simp [State.enter]
@[simp] theorem enter_pc : (s.enter ops).pc = s.nextPc ops := rfl
@[simp] theorem enter_fl : (s.enter ops).fl = s.fl := by simp [State.enter]
@[simp] theorem enter_ir : (s.enter ops).ir = s.ir := by simp [State.enter]
@[simp] theorem enter_opa : (s.enter ops).opa = (s.latch ops).opa := rfl
@[simp] theorem enter_opb : (s.enter ops).opb = (s.latch ops).opb := rfl
@[simp] theorem enter_run : (s.enter ops).run = s.run := by simp [State.enter]
@[simp] theorem enter_record : (s.enter ops).record = s.record := by simp [State.enter]
@[simp] theorem enter_mem : (s.enter ops).mem = s.mem := by simp [State.enter]
@[simp] theorem enter_hb : (s.enter ops).hb = s.hb := by simp [State.enter]
@[simp] theorem enter_output : (s.enter ops).output = s.output := by simp [State.enter]
@[simp] theorem enter_readReg (r : RegIndex) : (s.enter ops).readReg r = s.readReg r := by simp [State.enter]
@[simp] theorem enter_sp : (s.enter ops).sp = s.sp := enter_readReg s ops _
@[simp] theorem enter_memRead (a : Byte) : (s.enter ops).memRead a = s.memRead a := by simp [State.enter]

variable {s ops} in
/-- Fetching the same operand bytes again finds the same OPA, when the latch still holds it. -/
theorem relatch_opa {t : State} (h : t.opa = (s.latch ops).opa) : (t.latch ops).opa = (s.latch ops).opa := by
  match ops with
  | [] => exact h
  | [_] => rfl
  | _ :: _ :: _ => rfl

variable {s ops} in
/-- Fetching the same operand bytes again finds the same OPB, when the latch still holds it. -/
theorem relatch_opb {t : State} (h : t.opb = (s.latch ops).opb) : (t.latch ops).opb = (s.latch ops).opb := by
  match ops with
  | [] => exact h
  | [_] => exact h
  | _ :: _ :: _ => rfl

end Latch

section Registers
variable {fpc : Byte} {s t : State} {ra rb : RegIndex}

theorem registerOf_eq_some {k : Byte} {r : RegIndex} : registerOf k = some r ↔ k.toNat = r.val := by
  unfold registerOf
  split
  · next h => simp [Fin.ext_iff]
  · next h => have := r.isLt; constructor
              · intro e; cases e
              · intro e; omega

theorem registerOf_eq_none {k : Byte} : registerOf k = none ↔ 8 ≤ k.toNat := by
  unfold registerOf
  split <;> simp_all

/-- The handler runs when OPA names a register. -/
theorem withRa_names {handler : RegIndex → Result} (h : s.opa.toNat = ra.val) : withRa fpc s handler = handler ra := by
  rw [withRa, registerOf_eq_some.mpr h]

/-- IllegalRegister when it does not. -/
theorem withRa_none {handler : RegIndex → Result} (h : 8 ≤ s.opa.toNat) :
    withRa fpc s handler = .next (s.raise .illegalRegister fpc) := by
  rw [withRa, registerOf_eq_none.mpr h]

/-- Everything the check of OPA can do. -/
theorem withRa_cases {handler : RegIndex → Result} (h : withRa fpc s handler = .next t) :
    (8 ≤ s.opa.toNat ∧ t = s.raise .illegalRegister fpc) ∨ ∃ ra : RegIndex, s.opa.toNat = ra.val ∧ handler ra = .next t := by
  by_cases legal : s.opa.toNat < 8
  · rw [withRa_names (ra := ⟨s.opa.toNat, legal⟩) rfl] at h
    exact .inr ⟨_, rfl, h⟩
  · rw [withRa_none (by omega)] at h
    cases h
    exact .inl ⟨by omega, rfl⟩

theorem withRaRb_names {handler : RegIndex → RegIndex → Result} (ha : s.opa.toNat = ra.val) (hb : s.opb.toNat = rb.val) :
    withRaRb fpc s handler = handler ra rb := by
  rw [withRaRb, withRa_names ha]
  simp only [registerOf_eq_some.mpr hb]

theorem withRaRb_none {handler : RegIndex → RegIndex → Result} (h : 8 ≤ s.opa.toNat ∨ 8 ≤ s.opb.toNat) :
    withRaRb fpc s handler = .next (s.raise .illegalRegister fpc) := by
  rw [withRaRb]
  by_cases legal : s.opa.toNat < 8
  · rw [withRa_names (ra := ⟨s.opa.toNat, legal⟩) rfl]
    simp only [registerOf_eq_none.mpr (h.resolve_left (by omega))]
  · exact withRa_none (by omega)

/-- Everything the check of OPA and OPB can do. -/
theorem withRaRb_cases {handler : RegIndex → RegIndex → Result} (h : withRaRb fpc s handler = .next t) :
    ((8 ≤ s.opa.toNat ∨ 8 ≤ s.opb.toNat) ∧ t = s.raise .illegalRegister fpc) ∨
    ∃ ra rb : RegIndex, s.opa.toNat = ra.val ∧ s.opb.toNat = rb.val ∧ handler ra rb = .next t := by
  by_cases legal : 8 ≤ s.opa.toNat ∨ 8 ≤ s.opb.toNat
  · rw [withRaRb_none legal] at h
    cases h
    exact .inl ⟨legal, rfl⟩
  · have la : s.opa.toNat < 8 := by omega
    have lb : s.opb.toNat < 8 := by omega
    rw [withRaRb_names (ra := ⟨_, la⟩) (rb := ⟨_, lb⟩) rfl rfl] at h
    exact .inr ⟨_, _, rfl, rfl, h⟩

end Registers

section StackCheck
variable {s : State}

/-- A push goes through when the decremented SP is above HB. -/
theorem stackCheck_some (h : s.hb.val + 1 < s.sp.toNat) : s.stackCheck = some (s.sp - 1) := by
  have no : ¬ ((s.sp.toNat : Int) - 1 ≤ (s.hb.val : Int)) := by omega
  have : wrap8 ((s.sp.toNat : Int) - 1) = s.sp - 1 := by
    have e : ((s.sp.toNat : Int) - 1) = ((s.sp.toNat - 1 : Nat) : Int) := by omega
    rw [e, wrap8_natCast]
    apply BitVec.eq_of_toNat_eq
    have := s.sp.isLt
    rw [BitVec.toNat_ofNat, BitVec.toNat_sub]
    simp only [BitVec.reduceToNat]
    omega
  simp only [State.stackCheck, no, ite_false, this]

/-- A push overflows when the decremented SP, unwrapped, is at or below HB. -/
theorem stackCheck_none (h : s.sp.toNat ≤ s.hb.val + 1) : s.stackCheck = none := by
  have yes : (s.sp.toNat : Int) - 1 ≤ (s.hb.val : Int) := by omega
  simp only [State.stackCheck, yes, ite_true]

theorem stackCheck_cases {v : Byte} (h : s.stackCheck = some v) : s.hb.val + 1 < s.sp.toNat ∧ v = s.sp - 1 := by
  by_cases above : s.hb.val + 1 < s.sp.toNat
  · rw [stackCheck_some above] at h
    exact ⟨above, (Option.some.inj h).symm⟩
  · rw [stackCheck_none (by omega)] at h
    cases h

@[simp] theorem latch_stackCheck (ops : List Byte) : (s.latch ops).stackCheck = s.stackCheck := by
  simp [State.stackCheck]

@[simp] theorem enter_stackCheck (ops : List Byte) : (s.enter ops).stackCheck = s.stackCheck := by
  simp [State.stackCheck]

end StackCheck

end Sys2Proof.Machine
end

