-- ==== Sys2Proof/Laws/Exec.lean ====
section
/-! SUPPORT. The shared operations of the meanings, each with what it gives and everything it can do; and the one
inversion lemma of `exec`, from which whole-machine rules follow without unfolding it again. -/

namespace Sys2Proof.Machine

variable {s t : State} {ops : List Byte} {ra rb : RegIndex}

theorem aluBinary_names {f : Byte → Byte → Byte} (ha : (s.latch ops).opa.toNat = ra.val)
    (hb : (s.latch ops).opb.toNat = rb.val) :
    aluBinary f ops s = .next ((s.enter ops).writeReg ra (f (s.readReg ra) (s.readReg rb))) := by
  rw [aluBinary, withRaRb_names (s := s.enter ops) ha hb]
  simp

theorem aluBinary_none {f : Byte → Byte → Byte} (h : 8 ≤ (s.latch ops).opa.toNat ∨ 8 ≤ (s.latch ops).opb.toNat) :
    aluBinary f ops s = .next ((s.enter ops).raise .illegalRegister s.pc) := withRaRb_none h

theorem aluUnary_names {f : Byte → Byte} (ha : (s.latch ops).opa.toNat = ra.val) :
    aluUnary f ops s = .next ((s.enter ops).writeReg ra (f (s.readReg ra))) := by
  rw [aluUnary, withRa_names (s := s.enter ops) ha]
  simp

theorem aluUnary_none {f : Byte → Byte} (h : 8 ≤ (s.latch ops).opa.toNat) :
    aluUnary f ops s = .next ((s.enter ops).raise .illegalRegister s.pc) := withRa_none h

theorem aluDivide_names {f : Byte → Byte → Byte} (ha : (s.latch ops).opa.toNat = ra.val)
    (hb : (s.latch ops).opb.toNat = rb.val) (nonzero : s.readReg rb ≠ 0) :
    aluDivide f ops s = .next ((s.enter ops).writeReg ra (f (s.readReg ra) (s.readReg rb))) := by
  rw [aluDivide, withRaRb_names (s := s.enter ops) ha hb, enter_readReg, if_neg nonzero, enter_readReg]

theorem aluDivide_zero {f : Byte → Byte → Byte} (ha : (s.latch ops).opa.toNat = ra.val)
    (hb : (s.latch ops).opb.toNat = rb.val) (zero : s.readReg rb = 0) :
    aluDivide f ops s = .next ((s.enter ops).raise .divisionByZero s.pc) := by
  rw [aluDivide, withRaRb_names (s := s.enter ops) ha hb, enter_readReg, if_pos zero]

theorem aluDivide_none {f : Byte → Byte → Byte} (h : 8 ≤ (s.latch ops).opa.toNat ∨ 8 ≤ (s.latch ops).opb.toNat) :
    aluDivide f ops s = .next ((s.enter ops).raise .illegalRegister s.pc) := withRaRb_none h

theorem jumpWhen_names {taken : Byte → Bool} (ha : (s.latch ops).opa.toNat = ra.val) :
    jumpWhen taken ops s = .next ((s.latch ops).setPc (if taken s.fl then s.readReg ra else s.nextPc ops)) := by
  rw [jumpWhen, withRa_names ha]
  simp

theorem jumpWhen_none {taken : Byte → Bool} (h : 8 ≤ (s.latch ops).opa.toNat) :
    jumpWhen taken ops s = .next ((s.latch ops).raise .illegalRegister s.pc) := withRa_none h

theorem execPush_pushes (ha : (s.latch ops).opa.toNat = ra.val) (above : s.hb.val + 1 < s.sp.toNat) :
    execPush ops s = .next (((s.enter ops).setSp (s.sp - 1)).memWrite (s.sp - 1)
      (((s.enter ops).setSp (s.sp - 1)).readReg ra)) := by
  rw [execPush, withRa_names (s := s.enter ops) ha, enter_stackCheck, stackCheck_some above]
  simp

theorem execPush_overflows (ha : (s.latch ops).opa.toNat = ra.val) (below : s.sp.toNat ≤ s.hb.val + 1) :
    execPush ops s = .next ((s.enter ops).raise .stackOverflow s.pc) := by
  rw [execPush, withRa_names (s := s.enter ops) ha, enter_stackCheck, stackCheck_none below]

theorem execCall_calls (ha : (s.latch ops).opa.toNat = ra.val) (above : s.hb.val + 1 < s.sp.toNat) :
    execCall ops s = .next ((((s.latch ops).setSp (s.sp - 1)).memWrite (s.sp - 1) (s.nextPc ops)).setPc (s.readReg ra)) := by
  rw [execCall, withRa_names ha, latch_stackCheck, stackCheck_some above]
  simp

theorem execCall_overflows (ha : (s.latch ops).opa.toNat = ra.val) (below : s.sp.toNat ≤ s.hb.val + 1) :
    execCall ops s = .next ((s.latch ops).raise .stackOverflow s.pc) := by
  rw [execCall, withRa_names ha, latch_stackCheck, stackCheck_none below]

theorem execCmp_names (ha : (s.latch ops).opa.toNat = ra.val) (hb : (s.latch ops).opb.toNat = rb.val) :
    execCmp ops s = .next { s.enter ops with fl := compareFlags (s.readReg ra) (s.readReg rb) } := by
  rw [execCmp, withRaRb_names (s := s.enter ops) ha hb]
  simp

theorem execLdi_names (ha : (s.latch ops).opa.toNat = ra.val) :
    execLdi ops s = .next ((s.enter ops).writeReg ra (s.latch ops).opb) := by
  rw [execLdi, withRa_names (s := s.enter ops) ha]
  rfl

theorem execLd_names (ha : (s.latch ops).opa.toNat = ra.val) (hb : (s.latch ops).opb.toNat = rb.val) :
    execLd ops s = .next ((s.enter ops).writeReg ra (s.memRead (s.readReg rb))) := by
  rw [execLd, withRaRb_names (s := s.enter ops) ha hb]
  simp

theorem execSt_names (ha : (s.latch ops).opa.toNat = ra.val) (hb : (s.latch ops).opb.toNat = rb.val) :
    execSt ops s = .next ((s.enter ops).memWrite (s.readReg ra) (s.readReg rb)) := by
  rw [execSt, withRaRb_names (s := s.enter ops) ha hb]
  simp

theorem execPrn_names (ha : (s.latch ops).opa.toNat = ra.val) :
    execPrn ops s = .next ((s.enter ops).emit (.dec (s.readReg ra))) := by
  rw [execPrn, withRa_names (s := s.enter ops) ha]
  simp

theorem execPra_names (ha : (s.latch ops).opa.toNat = ra.val) :
    execPra ops s = .next ((s.enter ops).emit (.char (s.memRead (s.readReg ra)))) := by
  rw [execPra, withRa_names (s := s.enter ops) ha]
  simp

theorem execPop_names (ha : (s.latch ops).opa.toNat = ra.val) :
    execPop ops s = .next (((s.enter ops).writeReg ra (s.memRead s.sp)).setSp
      (((s.enter ops).writeReg ra (s.memRead s.sp)).sp + 1)) := by
  rw [execPop, withRa_names (s := s.enter ops) ha]
  simp only [enter_sp, enter_memRead, wrap8_toNat_succ]

theorem execRet_pops : execRet ops s = .next (((s.latch ops).setSp (s.sp + 1)).setPc (s.memRead s.sp)) := by
  rw [execRet]
  simp only [latch_sp, latch_memRead, wrap8_toNat_succ]

/-! ### What the ALU computes, without the integer detour -/

theorem addBytes_eq (a b : Byte) : addBytes a b = BitVec.ofNat 8 (a.toNat + b.toNat) := by
  simp [addBytes, ← wrap8_natCast]

theorem subBytes_eq (a b : Byte) : subBytes a b = BitVec.ofNat 8 (a.toNat + 256 - b.toNat) := by
  have hb := b.isLt
  apply BitVec.eq_of_toNat_eq
  simp only [subBytes, wrap8, BitVec.toNat_ofInt, BitVec.toNat_ofNat]
  omega

theorem mulBytes_eq (a b : Byte) : mulBytes a b = BitVec.ofNat 8 (a.toNat * b.toNat) := by
  simp [mulBytes, ← wrap8_natCast]

theorem divBytes_eq (a b : Byte) : divBytes a b = BitVec.ofNat 8 (a.toNat / b.toNat) := by
  simp only [divBytes, wrap8_natCast]

theorem modBytes_eq (a b : Byte) : modBytes a b = BitVec.ofNat 8 (a.toNat % b.toNat) := by
  have : ((a.toNat : Int) - b.toNat * (a.toNat / b.toNat : Nat)) = ((a.toNat % b.toNat : Nat) : Int) := by
    have := Nat.div_add_mod a.toNat b.toNat
    omega
  rw [modBytes, this, wrap8_natCast]

theorem shlBytes_eq (a b : Byte) : shlBytes a b = BitVec.ofNat 8 (a.toNat * 2 ^ b.toNat) := by
  unfold shlBytes
  split
  · next big =>
    apply BitVec.eq_of_toNat_eq
    obtain ⟨k, hk⟩ := Nat.exists_eq_add_of_le big
    rw [BitVec.toNat_ofNat, hk, Nat.pow_add, Nat.mul_left_comm]
    simp
  · rw [wrap8_natCast]

theorem shrBytes_eq (a b : Byte) : shrBytes a b = BitVec.ofNat 8 (a.toNat / 2 ^ b.toNat) := by
  unfold shrBytes
  split
  · next big =>
    have : a.toNat / 2 ^ b.toNat = 0 :=
      Nat.div_eq_of_lt (Nat.lt_of_lt_of_le a.isLt (Nat.pow_le_pow_right (by omega) big))
    rw [this]
    rfl
  · rw [wrap8_natCast]

/-! ### Everything each shared operation and each handler of its own can do -/

section Cases

/-- OPA, during the handler, names no register. -/
abbrev IllegalRa (ops : List Byte) (s : State) : Prop := 8 ≤ (s.latch ops).opa.toNat

/-- OPA or OPB, during the handler, names no register. -/
abbrev IllegalRaRb (ops : List Byte) (s : State) : Prop :=
  8 ≤ (s.latch ops).opa.toNat ∨ 8 ≤ (s.latch ops).opb.toNat

/-- OPA, during the handler, names the register. -/
abbrev NamesRa (ops : List Byte) (s : State) (ra : RegIndex) : Prop := (s.latch ops).opa.toNat = ra.val

/-- OPB, during the handler, names the register. -/
abbrev NamesRb (ops : List Byte) (s : State) (rb : RegIndex) : Prop := (s.latch ops).opb.toNat = rb.val

theorem aluBinary_cases {f : Byte → Byte → Byte} (h : aluBinary f ops s = .next t) :
    (IllegalRaRb ops s ∧ t = (s.enter ops).raise .illegalRegister s.pc) ∨
    ∃ ra rb, NamesRa ops s ra ∧ NamesRb ops s rb ∧ t = (s.enter ops).writeReg ra (f (s.readReg ra) (s.readReg rb)) := by
  obtain ⟨bad, e⟩ | ⟨ra, rb, ha, hb, -⟩ := withRaRb_cases h
  · exact .inl ⟨bad, e⟩
  · rw [aluBinary_names ha hb] at h
    cases h
    exact .inr ⟨ra, rb, ha, hb, rfl⟩

theorem aluUnary_cases {f : Byte → Byte} (h : aluUnary f ops s = .next t) :
    (IllegalRa ops s ∧ t = (s.enter ops).raise .illegalRegister s.pc) ∨
    ∃ ra, NamesRa ops s ra ∧ t = (s.enter ops).writeReg ra (f (s.readReg ra)) := by
  obtain ⟨bad, e⟩ | ⟨ra, ha, -⟩ := withRa_cases h
  · exact .inl ⟨bad, e⟩
  · rw [aluUnary_names ha] at h
    cases h
    exact .inr ⟨ra, ha, rfl⟩

theorem aluDivide_cases {f : Byte → Byte → Byte} (h : aluDivide f ops s = .next t) :
    (IllegalRaRb ops s ∧ t = (s.enter ops).raise .illegalRegister s.pc) ∨
    ∃ ra rb, NamesRa ops s ra ∧ NamesRb ops s rb ∧
      ((s.readReg rb = 0 ∧ t = (s.enter ops).raise .divisionByZero s.pc) ∨
       (s.readReg rb ≠ 0 ∧ t = (s.enter ops).writeReg ra (f (s.readReg ra) (s.readReg rb)))) := by
  obtain ⟨bad, e⟩ | ⟨ra, rb, ha, hb, -⟩ := withRaRb_cases h
  · exact .inl ⟨bad, e⟩
  · refine .inr ⟨ra, rb, ha, hb, ?_⟩
    by_cases zero : s.readReg rb = 0
    · rw [aluDivide_zero ha hb zero] at h
      cases h
      exact .inl ⟨zero, rfl⟩
    · rw [aluDivide_names ha hb zero] at h
      cases h
      exact .inr ⟨zero, rfl⟩

theorem jumpWhen_cases {taken : Byte → Bool} (h : jumpWhen taken ops s = .next t) :
    (IllegalRa ops s ∧ t = (s.latch ops).raise .illegalRegister s.pc) ∨
    ∃ ra, NamesRa ops s ra ∧ t = (s.latch ops).setPc (if taken s.fl then s.readReg ra else s.nextPc ops) := by
  obtain ⟨bad, e⟩ | ⟨ra, ha, -⟩ := withRa_cases h
  · exact .inl ⟨bad, e⟩
  · rw [jumpWhen_names ha] at h
    cases h
    exact .inr ⟨ra, ha, rfl⟩

theorem execCmp_cases (h : execCmp ops s = .next t) :
    (IllegalRaRb ops s ∧ t = (s.enter ops).raise .illegalRegister s.pc) ∨
    ∃ ra rb, NamesRa ops s ra ∧ NamesRb ops s rb ∧
      t = { s.enter ops with fl := compareFlags (s.readReg ra) (s.readReg rb) } := by
  obtain ⟨bad, e⟩ | ⟨ra, rb, ha, hb, e⟩ := withRaRb_cases h
  · exact .inl ⟨bad, e⟩
  · rw [enter_readReg, enter_readReg] at e
    cases e
    exact .inr ⟨ra, rb, ha, hb, rfl⟩

theorem execLdi_cases (h : execLdi ops s = .next t) :
    (IllegalRa ops s ∧ t = (s.enter ops).raise .illegalRegister s.pc) ∨
    ∃ ra, NamesRa ops s ra ∧ t = (s.enter ops).writeReg ra (s.latch ops).opb := by
  obtain ⟨bad, e⟩ | ⟨ra, ha, e⟩ := withRa_cases h
  · exact .inl ⟨bad, e⟩
  · cases e
    exact .inr ⟨ra, ha, rfl⟩

theorem execLd_cases (h : execLd ops s = .next t) :
    (IllegalRaRb ops s ∧ t = (s.enter ops).raise .illegalRegister s.pc) ∨
    ∃ ra rb, NamesRa ops s ra ∧ NamesRb ops s rb ∧ t = (s.enter ops).writeReg ra (s.memRead (s.readReg rb)) := by
  obtain ⟨bad, e⟩ | ⟨ra, rb, ha, hb, e⟩ := withRaRb_cases h
  · exact .inl ⟨bad, e⟩
  · rw [enter_readReg, enter_memRead] at e
    cases e
    exact .inr ⟨ra, rb, ha, hb, rfl⟩

theorem execSt_cases (h : execSt ops s = .next t) :
    (IllegalRaRb ops s ∧ t = (s.enter ops).raise .illegalRegister s.pc) ∨
    ∃ ra rb, NamesRa ops s ra ∧ NamesRb ops s rb ∧ t = (s.enter ops).memWrite (s.readReg ra) (s.readReg rb) := by
  obtain ⟨bad, e⟩ | ⟨ra, rb, ha, hb, e⟩ := withRaRb_cases h
  · exact .inl ⟨bad, e⟩
  · rw [enter_readReg, enter_readReg] at e
    cases e
    exact .inr ⟨ra, rb, ha, hb, rfl⟩

theorem execPrn_cases (h : execPrn ops s = .next t) :
    (IllegalRa ops s ∧ t = (s.enter ops).raise .illegalRegister s.pc) ∨
    ∃ ra, NamesRa ops s ra ∧ t = (s.enter ops).emit (.dec (s.readReg ra)) := by
  obtain ⟨bad, e⟩ | ⟨ra, ha, e⟩ := withRa_cases h
  · exact .inl ⟨bad, e⟩
  · rw [enter_readReg] at e
    cases e
    exact .inr ⟨ra, ha, rfl⟩

theorem execPra_cases (h : execPra ops s = .next t) :
    (IllegalRa ops s ∧ t = (s.enter ops).raise .illegalRegister s.pc) ∨
    ∃ ra, NamesRa ops s ra ∧ t = (s.enter ops).emit (.char (s.memRead (s.readReg ra))) := by
  obtain ⟨bad, e⟩ | ⟨ra, ha, e⟩ := withRa_cases h
  · exact .inl ⟨bad, e⟩
  · rw [enter_readReg, enter_memRead] at e
    cases e
    exact .inr ⟨ra, ha, rfl⟩

theorem execPop_cases (h : execPop ops s = .next t) :
    (IllegalRa ops s ∧ t = (s.enter ops).raise .illegalRegister s.pc) ∨
    ∃ ra, NamesRa ops s ra ∧ t = ((s.enter ops).writeReg ra (s.memRead s.sp)).setSp
      (wrap8 ((((s.enter ops).writeReg ra (s.memRead s.sp)).sp.toNat : Int) + 1)) := by
  obtain ⟨bad, e⟩ | ⟨ra, ha, e⟩ := withRa_cases h
  · exact .inl ⟨bad, e⟩
  · rw [enter_sp, enter_memRead] at e
    cases e
    exact .inr ⟨ra, ha, rfl⟩

theorem execPush_cases (h : execPush ops s = .next t) :
    (IllegalRa ops s ∧ t = (s.enter ops).raise .illegalRegister s.pc) ∨
    ∃ ra, NamesRa ops s ra ∧
      ((s.sp.toNat ≤ s.hb.val + 1 ∧ t = (s.enter ops).raise .stackOverflow s.pc) ∨
       (s.hb.val + 1 < s.sp.toNat ∧ t = ((s.enter ops).setSp (s.sp - 1)).memWrite (s.sp - 1)
         (((s.enter ops).setSp (s.sp - 1)).readReg ra))) := by
  obtain ⟨bad, e⟩ | ⟨ra, ha, -⟩ := withRa_cases h
  · exact .inl ⟨bad, e⟩
  · refine .inr ⟨ra, ha, ?_⟩
    by_cases below : s.sp.toNat ≤ s.hb.val + 1
    · rw [execPush_overflows ha below] at h
      cases h
      exact .inl ⟨below, rfl⟩
    · rw [execPush_pushes ha (by omega)] at h
      cases h
      exact .inr ⟨by omega, rfl⟩

theorem execCall_cases (h : execCall ops s = .next t) :
    (IllegalRa ops s ∧ t = (s.latch ops).raise .illegalRegister s.pc) ∨
    ∃ ra, NamesRa ops s ra ∧
      ((s.sp.toNat ≤ s.hb.val + 1 ∧ t = (s.latch ops).raise .stackOverflow s.pc) ∨
       (s.hb.val + 1 < s.sp.toNat ∧
         t = (((s.latch ops).setSp (s.sp - 1)).memWrite (s.sp - 1) (s.nextPc ops)).setPc (s.readReg ra))) := by
  obtain ⟨bad, e⟩ | ⟨ra, ha, -⟩ := withRa_cases h
  · exact .inl ⟨bad, e⟩
  · refine .inr ⟨ra, ha, ?_⟩
    by_cases below : s.sp.toNat ≤ s.hb.val + 1
    · rw [execCall_overflows ha below] at h
      cases h
      exact .inl ⟨below, rfl⟩
    · rw [execCall_calls ha (by omega)] at h
      cases h
      exact .inr ⟨by omega, rfl⟩

end Cases

/-! ### Everything exec can do -/

/-- The state the handler starts from: operands fetched, and pc advanced when the manual-PC flag is 0 (R68, R69). -/
def handlerStart (manualPc : Bool) (ops : List Byte) (s : State) : State := if manualPc then s.latch ops else s.enter ops

/-- Everything a handler can do to the state b it starts from, by its manual-PC flag. No handler raises UnknownOpcode. -/
inductive Effect (pc : Byte) (b : State) : Bool → State → Prop where
  | raised (manualPc : Bool) (c : Cause) (own : c ≠ .unknownOpcode) : Effect pc b manualPc (b.raise c pc)
  | none : Effect pc b false b
  | wroteReg (r : RegIndex) (v : Byte) : Effect pc b false (b.writeReg r v)
  | popped (r : RegIndex) (v sp : Byte) : Effect pc b false ((b.writeReg r v).setSp sp)
  | compared (x y : Byte) : Effect pc b false { b with fl := compareFlags x y }
  | stored (a v : Byte) : Effect pc b false (b.memWrite a v)
  | pushed (sp a v : Byte) : Effect pc b false ((b.setSp sp).memWrite a v)
  | emitted (e : OutEvent) : Effect pc b false (b.emit e)
  | halted : Effect pc b false { b with run := .halted }
  | jumped (target : Byte) : Effect pc b true (b.setPc target)
  | called (sp a v target : Byte) : Effect pc b true (((b.setSp sp).memWrite a v).setPc target)
  | returned (sp target : Byte) : Effect pc b true ((b.setSp sp).setPc target)

theorem aluBinary_effect {f : Byte → Byte → Byte} (h : aluBinary f ops s = .next t) :
    Effect s.pc (s.enter ops) false t := by
  obtain ⟨-, rfl⟩ | ⟨ra, rb, -, -, rfl⟩ := aluBinary_cases h
  · exact .raised _ _ (by decide)
  · exact .wroteReg _ _

theorem aluUnary_effect {f : Byte → Byte} (h : aluUnary f ops s = .next t) : Effect s.pc (s.enter ops) false t := by
  obtain ⟨-, rfl⟩ | ⟨ra, -, rfl⟩ := aluUnary_cases h
  · exact .raised _ _ (by decide)
  · exact .wroteReg _ _

theorem aluDivide_effect {f : Byte → Byte → Byte} (h : aluDivide f ops s = .next t) :
    Effect s.pc (s.enter ops) false t := by
  obtain ⟨-, rfl⟩ | ⟨ra, rb, -, -, ⟨-, rfl⟩ | ⟨-, rfl⟩⟩ := aluDivide_cases h
  · exact .raised _ _ (by decide)
  · exact .raised _ _ (by decide)
  · exact .wroteReg _ _

theorem jumpWhen_effect {taken : Byte → Bool} (h : jumpWhen taken ops s = .next t) :
    Effect s.pc (s.latch ops) true t := by
  obtain ⟨-, rfl⟩ | ⟨ra, -, rfl⟩ := jumpWhen_cases h
  · exact .raised _ _ (by decide)
  · exact .jumped _

/-- Everything an instruction can do when it gives a next state. -/
theorem exec_effect {i : Instr} (h : exec i s = .next t) :
    Effect s.pc (handlerStart i.row.manualPc i.operands s) i.row.manualPc t := by
  cases i with
  | nop ops => cases h; exact .none
  | hlt ops => cases h; exact .halted
  | int ops => cases h; exact .jumped _
  | iret ops => cases h; exact .jumped _
  | ret ops => cases h; exact .returned _ _
  | ldi ops =>
    obtain ⟨-, rfl⟩ | ⟨ra, -, rfl⟩ := execLdi_cases h
    · exact .raised _ _ (by decide)
    · exact .wroteReg _ _
  | ld ops =>
    obtain ⟨-, rfl⟩ | ⟨ra, rb, -, -, rfl⟩ := execLd_cases h
    · exact .raised _ _ (by decide)
    · exact .wroteReg _ _
  | st ops =>
    obtain ⟨-, rfl⟩ | ⟨ra, rb, -, -, rfl⟩ := execSt_cases h
    · exact .raised _ _ (by decide)
    · exact .stored _ _
  | push ops =>
    obtain ⟨-, rfl⟩ | ⟨ra, -, ⟨-, rfl⟩ | ⟨-, rfl⟩⟩ := execPush_cases h
    · exact .raised _ _ (by decide)
    · exact .raised _ _ (by decide)
    · exact .pushed _ _ _
  | pop ops =>
    obtain ⟨-, rfl⟩ | ⟨ra, -, rfl⟩ := execPop_cases h
    · exact .raised _ _ (by decide)
    · exact .popped _ _ _
  | prn ops =>
    obtain ⟨-, rfl⟩ | ⟨ra, -, rfl⟩ := execPrn_cases h
    · exact .raised _ _ (by decide)
    · exact .emitted _
  | pra ops =>
    obtain ⟨-, rfl⟩ | ⟨ra, -, rfl⟩ := execPra_cases h
    · exact .raised _ _ (by decide)
    · exact .emitted _
  | call ops =>
    obtain ⟨-, rfl⟩ | ⟨ra, -, ⟨-, rfl⟩ | ⟨-, rfl⟩⟩ := execCall_cases h
    · exact .raised _ _ (by decide)
    · exact .raised _ _ (by decide)
    · exact .called _ _ _ _
  | cmp ops =>
    obtain ⟨-, rfl⟩ | ⟨ra, rb, -, -, rfl⟩ := execCmp_cases h
    · exact .raised _ _ (by decide)
    · exact .compared _ _
  | jmp ops => exact jumpWhen_effect (taken := fun _ => true) (ops := ops) h
  | jeq ops => exact jumpWhen_effect h
  | jne ops => exact jumpWhen_effect h
  | jgt ops => exact jumpWhen_effect h
  | jlt ops => exact jumpWhen_effect h
  | jle ops => exact jumpWhen_effect h
  | jge ops => exact jumpWhen_effect h
  | add ops => exact aluBinary_effect h
  | sub ops => exact aluBinary_effect h
  | mul ops => exact aluBinary_effect h
  | div ops => exact aluDivide_effect h
  | mod ops => exact aluDivide_effect h
  | inc ops => exact aluUnary_effect h
  | dec ops => exact aluUnary_effect h
  | and ops => exact aluBinary_effect h
  | not ops => exact aluUnary_effect h
  | or ops => exact aluBinary_effect h
  | xor ops => exact aluBinary_effect h
  | shl ops => exact aluBinary_effect h
  | shr ops => exact aluBinary_effect h

/-- The register checks and the shared operations never answer anything but a next state. -/
theorem withRa_total {fpc : Byte} {handler : RegIndex → Result} (h : ∀ ra, ∃ t, handler ra = .next t) :
    ∃ t, withRa fpc s handler = .next t := by
  unfold withRa
  split
  · exact ⟨_, rfl⟩
  · exact h _

theorem withRaRb_total {fpc : Byte} {handler : RegIndex → RegIndex → Result} (h : ∀ ra rb, ∃ t, handler ra rb = .next t) :
    ∃ t, withRaRb fpc s handler = .next t := by
  refine withRa_total fun ra => ?_
  split
  · exact ⟨_, rfl⟩
  · exact h _ _

/-- No instruction faults or refuses in the model's sense: every one gives a next state in every state. -/
theorem exec_total (i : Instr) (s : State) : ∃ t, exec i s = .next t := by
  cases i with
  | nop ops => exact ⟨_, rfl⟩
  | hlt ops => exact ⟨_, rfl⟩
  | int ops => exact ⟨_, rfl⟩
  | iret ops => exact ⟨_, rfl⟩
  | ret ops => exact ⟨_, rfl⟩
  | push ops => exact withRa_total fun _ => by split <;> exact ⟨_, rfl⟩
  | call ops => exact withRa_total fun _ => by dsimp only; split <;> exact ⟨_, rfl⟩
  | div ops => exact withRaRb_total fun _ _ => by split <;> exact ⟨_, rfl⟩
  | mod ops => exact withRaRb_total fun _ _ => by split <;> exact ⟨_, rfl⟩
  | ldi ops | pop ops | prn ops | pra ops | inc ops | dec ops | not ops => exact withRa_total fun _ => ⟨_, rfl⟩
  | jmp ops | jeq ops | jne ops | jgt ops | jlt ops | jle ops | jge ops => exact withRa_total fun _ => ⟨_, rfl⟩
  | ld ops | st ops | cmp ops | add ops | sub ops | mul ops | and ops | or ops | xor ops | shl ops | shr ops =>
    exact withRaRb_total fun _ _ => ⟨_, rfl⟩

/-- What the compare writes to FL is one flag. -/
theorem compareFlags_cases (a b : Byte) :
    compareFlags a b = if a.toNat = b.toNat then 0x01 else if b.toNat < a.toNat then 0x02 else 0x04 := by
  unfold compareFlags
  rcases Nat.lt_trichotomy a.toNat b.toNat with h | h | h
  · have h1 : ¬ a.toNat = b.toNat := by omega
    have h2 : ¬ b.toNat < a.toNat := by omega
    simp [h, h1, h2]
  · simp [h]
  · have h1 : ¬ a.toNat = b.toNat := by omega
    have h2 : ¬ a.toNat < b.toNat := by omega
    simp [h, h1, h2]

end Sys2Proof.Machine
end

