-- ==== Sys2Proof/Laws/Step.lean ====
section
/-! SUPPORT. The step, said once: it answers a next state exactly as an unknown opcode or as the decoded instruction. -/

namespace Sys2Proof.Machine

variable {s t : State}

/-- The step of a RUNNING CORE whose bytes decode. -/
theorem step_decoded {i : Instr} {rest : List Byte} (running : s.run = .running)
    (h : decode s.fetchBytes = .ok (i, rest)) : step s = exec i s.fetchOpcode := by
  unfold step
  rw [running]
  simp only [h]

/-- The step of a RUNNING CORE whose bytes do not. -/
theorem step_unknown {why : Reject} (running : s.run = .running) (h : decode s.fetchBytes = .error why) :
    step s = .next (s.fetchOpcode.raise .unknownOpcode s.pc) := by
  unfold step
  rw [running]
  simp only [h]

/-- Everything a step can do when it gives a next state. -/
theorem step_cases (h : step s = .next t) :
    s.run = .running ∧
    ((∃ why, decode s.fetchBytes = .error why ∧ t = s.fetchOpcode.raise .unknownOpcode s.pc) ∨
     ∃ i rest, decode s.fetchBytes = .ok (i, rest) ∧ exec i s.fetchOpcode = .next t) := by
  cases running : s.run with
  | halted => simp [step, running] at h
  | fault => simp [step, running] at h
  | running =>
    refine ⟨rfl, ?_⟩
    cases d : decode s.fetchBytes with
    | error why =>
      rw [step_unknown running d] at h
      cases h
      exact .inl ⟨why, rfl, rfl⟩
    | ok p =>
      obtain ⟨i, rest⟩ := p
      rw [step_decoded running d] at h
      exact .inr ⟨i, rest, rfl, h⟩

end Sys2Proof.Machine
end

