-- ==== Sys2Proof/Tests/Slice0.lean ====
section
/-! SUPPORT. The model's own tests. Expected values are those of 95_test_vectors.md and of the rules' example lines, not the
model's answers. First the ill-formed terms and the encodings, then one or two steps per instruction, then for each
obligation with hypotheses a witness that meets them. -/

namespace Sys2Proof.Tests

open Sys2Proof.Machine Sys2Proof.Claims

/-- A RUNNING CORE with the bytes stored at an address, pc there, and the given registers. -/
def coreAt (a : Byte) (bytes : List Byte) (regs : List (RegIndex × Byte)) : State :=
  regs.foldl (fun s p => s.writeReg p.1 p.2) (State.storeBytes { State.reset with pc := a } a bytes)

/-- The next state of an outcome. -/
def nextOf : Result → Option State
  | .next t => some t
  | .fault _ => none
  | .refused _ => none

/-- What one step from the state makes of a field. -/
def afterStep (s : State) (field : State → α) : Option α := (nextOf (step s)).map field

/-- run, cause and fpc. -/
def stopOf (s : State) : RunState × Option FaultRecord := (s.run, s.record)

/-! ### Ill-formed terms (R47, R50) and the reset state (R29) -/

theorem test_wf_refuses_three_operands : (Instr.add [1, 2, 3]).wf = false := by decide
theorem test_wf_refuses_four_operands : (Instr.nop [0, 0, 0, 0]).wf = false := by decide
theorem test_wf_accepts_two_operands : (Instr.add [1, 2]).wf = true := by decide
theorem test_decode_refuses_count_three : decode [0b11000000, 0, 0] = .error .countThree := by decide
theorem test_decode_refuses_unregistered : decode [0b00001001] = .error .noHandler := by decide
theorem test_decode_refuses_short : decode [0b10100000, 0x00] = .error .tooFewBytes := by decide
theorem test_reset_registers : State.reset.x = #v[0, 0, 0, 0, 0, 0, 0, 0xF4] := by decide
theorem test_reset_pc_run : State.reset.pc = 0 ∧ State.reset.fl = 0 ∧ State.reset.run = .running := by decide

/-! ### Encodings, written out from the Encoding lines of the instruction rules (count, A, P, index) -/

theorem test_decode_nop : decode [0b00000000] = .ok (.nop [], []) := by decide
theorem test_decode_hlt : decode [0b00000001] = .ok (.hlt [], []) := by decide
theorem test_decode_ldi : decode [0b10000010, 0x03, 0xFE] = .ok (.ldi [0x03, 0xFE], []) := by decide
theorem test_decode_ld : decode [0b10000011, 0x03, 0x05] = .ok (.ld [0x03, 0x05], []) := by decide
theorem test_decode_st : decode [0b10000100, 0x03, 0x05] = .ok (.st [0x03, 0x05], []) := by decide
theorem test_decode_push : decode [0b01000101, 0x07] = .ok (.push [0x07], []) := by decide
theorem test_decode_pop : decode [0b01000110, 0x07] = .ok (.pop [0x07], []) := by decide
theorem test_decode_prn : decode [0b01000111, 0x07] = .ok (.prn [0x07], []) := by decide
theorem test_decode_pra : decode [0b01001000, 0x07] = .ok (.pra [0x07], []) := by decide
theorem test_decode_call : decode [0b01010000, 0x07] = .ok (.call [0x07], []) := by decide
theorem test_decode_ret : decode [0b00010001] = .ok (.ret [], []) := by decide
theorem test_decode_int : decode [0b01010010, 0xFF] = .ok (.int [0xFF], []) := by decide
theorem test_decode_iret : decode [0b00010011] = .ok (.iret [], []) := by decide
theorem test_decode_jmp : decode [0b01010100, 0x07] = .ok (.jmp [0x07], []) := by decide
theorem test_decode_jeq : decode [0b01010101, 0x07] = .ok (.jeq [0x07], []) := by decide
theorem test_decode_jne : decode [0b01010110, 0x07] = .ok (.jne [0x07], []) := by decide
theorem test_decode_jgt : decode [0b01010111, 0x07] = .ok (.jgt [0x07], []) := by decide
theorem test_decode_jlt : decode [0b01011000, 0x07] = .ok (.jlt [0x07], []) := by decide
theorem test_decode_jle : decode [0b01011001, 0x07] = .ok (.jle [0x07], []) := by decide
theorem test_decode_jge : decode [0b01011010, 0x07] = .ok (.jge [0x07], []) := by decide
theorem test_decode_add : decode [0b10100000, 0x03, 0x05] = .ok (.add [0x03, 0x05], []) := by decide
theorem test_decode_sub : decode [0b10100001, 0x03, 0x05] = .ok (.sub [0x03, 0x05], []) := by decide
theorem test_decode_mul : decode [0b10100010, 0x03, 0x05] = .ok (.mul [0x03, 0x05], []) := by decide
theorem test_decode_div : decode [0b10100011, 0x03, 0x05] = .ok (.div [0x03, 0x05], []) := by decide
theorem test_decode_mod : decode [0b10100100, 0x03, 0x05] = .ok (.mod [0x03, 0x05], []) := by decide
theorem test_decode_inc : decode [0b01100101, 0x07] = .ok (.inc [0x07], []) := by decide
theorem test_decode_dec : decode [0b01100110, 0x07] = .ok (.dec [0x07], []) := by decide
theorem test_decode_cmp : decode [0b10100111, 0x03, 0x05] = .ok (.cmp [0x03, 0x05], []) := by decide
theorem test_decode_and : decode [0b10101000, 0x03, 0x05] = .ok (.and [0x03, 0x05], []) := by decide
theorem test_decode_not : decode [0b01101001, 0x07] = .ok (.not [0x07], []) := by decide
theorem test_decode_or : decode [0b10101010, 0x03, 0x05] = .ok (.or [0x03, 0x05], []) := by decide
theorem test_decode_xor : decode [0b10101011, 0x03, 0x05] = .ok (.xor [0x03, 0x05], []) := by decide
theorem test_decode_shl : decode [0b10101100, 0x03, 0x05] = .ok (.shl [0x03, 0x05], []) := by decide
theorem test_decode_shr : decode [0b10101101, 0x03, 0x05] = .ok (.shr [0x03, 0x05], []) := by decide

/-! ### One step (the vectors of 95_test_vectors.md, sections 2.1 to 2.6) -/

theorem test_add_carry_lost :
    afterStep (coreAt 0x10 [0xA0, 0x00, 0x01] [(0, 0xC8), (1, 0x64)]) (fun t => (t.readReg 0, t.pc)) = some (0x2C, 0x13) := by decide
theorem test_add_same_register :
    afterStep (coreAt 0x10 [0xA0, 0x00, 0x00] [(0, 0x81)]) (fun t => (t.readReg 0, t.pc)) = some (0x02, 0x13) := by decide
theorem test_sub_borrow_wraps :
    afterStep (coreAt 0x10 [0xA1, 0x00, 0x01] [(0, 0x03), (1, 0x05)]) (fun t => (t.readReg 0, t.pc)) = some (0xFE, 0x13) := by decide
theorem test_mul_low_bits :
    afterStep (coreAt 0x10 [0xA2, 0x00, 0x01] [(0, 0x14), (1, 0x0D)]) (fun t => (t.readReg 0, t.pc)) = some (0x04, 0x13) := by decide
theorem test_div_quotient :
    afterStep (coreAt 0x10 [0xA3, 0x00, 0x01] [(0, 0xFF), (1, 0x10)]) (fun t => (t.readReg 0, t.pc)) = some (0x0F, 0x13) := by decide
theorem test_div_by_zero :
    afterStep (coreAt 0x10 [0xA3, 0x00, 0x01] [(0, 0x05)]) (fun t => (stopOf t, t.readReg 0, t.pc)) =
      some ((.fault, some ⟨.divisionByZero, 0x10⟩), 0x05, 0x13) := by decide
theorem test_mod_remainder :
    afterStep (coreAt 0x10 [0xA4, 0x00, 0x01] [(0, 0x07), (1, 0x02)]) (fun t => (t.readReg 0, t.pc)) = some (0x01, 0x13) := by decide
theorem test_mod_by_zero :
    afterStep (coreAt 0x10 [0xA4, 0x01, 0x01] []) stopOf = some (.fault, some ⟨.divisionByZero, 0x10⟩) := by decide
theorem test_and_bits :
    afterStep (coreAt 0x10 [0xA8, 0x00, 0x01] [(0, 0xF0), (1, 0x3C)]) (fun t => (t.readReg 0, t.pc)) = some (0x30, 0x13) := by decide
theorem test_or_bits :
    afterStep (coreAt 0x10 [0xAA, 0x00, 0x01] [(0, 0xF0), (1, 0x0F)]) (fun t => (t.readReg 0, t.pc)) = some (0xFF, 0x13) := by decide
theorem test_xor_bits :
    afterStep (coreAt 0x10 [0xAB, 0x00, 0x01] [(0, 0xFF), (1, 0x0F)]) (fun t => (t.readReg 0, t.pc)) = some (0xF0, 0x13) := by decide
theorem test_not_bits :
    afterStep (coreAt 0x10 [0x69, 0x02] [(2, 0xA5)]) (fun t => (t.readReg 2, t.pc)) = some (0x5A, 0x12) := by decide
theorem test_not_r8_illegal :
    afterStep (coreAt 0x10 [0x69, 0x08] []) (fun t => (stopOf t, t.pc)) =
      some ((.fault, some ⟨.illegalRegister, 0x10⟩), 0x12) := by decide
theorem test_shl_bit_lost :
    afterStep (coreAt 0x10 [0xAC, 0x00, 0x01] [(0, 0x81), (1, 0x01)]) (fun t => (t.readReg 0, t.pc)) = some (0x02, 0x13) := by decide
theorem test_shl_by_width :
    afterStep (coreAt 0x10 [0xAC, 0x00, 0x01] [(0, 0x01), (1, 0x08)]) (fun t => (t.readReg 0, t.pc)) = some (0x00, 0x13) := by decide
theorem test_shr_logical :
    afterStep (coreAt 0x10 [0xAD, 0x00, 0x01] [(0, 0x81), (1, 0x01)]) (fun t => (t.readReg 0, t.pc)) = some (0x40, 0x13) := by decide
theorem test_shr_by_width :
    afterStep (coreAt 0x10 [0xAD, 0x00, 0x01] [(0, 0xFF), (1, 0x08)]) (fun t => (t.readReg 0, t.pc)) = some (0x00, 0x13) := by decide
theorem test_inc_wraps :
    afterStep (coreAt 0x10 [0x65, 0x03] [(3, 0xFF)]) (fun t => (t.readReg 3, t.pc)) = some (0x00, 0x12) := by decide
theorem test_dec_wraps :
    afterStep (coreAt 0x10 [0x66, 0x01] []) (fun t => (t.readReg 1, t.pc)) = some (0xFF, 0x12) := by decide
theorem test_cmp_unsigned_greater :
    afterStep (coreAt 0x10 [0xA7, 0x00, 0x01] [(0, 0x80), (1, 0x7F)]) (fun t => (t.fl, t.readReg 0)) =
      some (0x02, 0x80) := by decide
theorem test_cmp_clears_old_bit :
    afterStep { coreAt 0x10 [0xA7, 0x00, 0x01] [(0, 5), (1, 5)] with fl := 0x04 } State.fl = some 0x01 := by decide
theorem test_jmp_taken :
    afterStep { coreAt 0x20 [0x54, 0x01] [(1, 0x40)] with fl := 0x00 } State.pc = some 0x40 := by decide
theorem test_jeq_taken :
    afterStep { coreAt 0x20 [0x55, 0x01] [(1, 0x40)] with fl := 0x01 } State.pc = some 0x40 := by decide
theorem test_jeq_falls_through :
    afterStep { coreAt 0x20 [0x55, 0x01] [(1, 0x40)] with fl := 0x02 } State.pc = some 0x22 := by decide
theorem test_jne_taken :
    afterStep { coreAt 0x20 [0x56, 0x01] [(1, 0x40)] with fl := 0x00 } State.pc = some 0x40 := by decide
theorem test_jne_falls_through :
    afterStep { coreAt 0x20 [0x56, 0x01] [(1, 0x40)] with fl := 0x01 } State.pc = some 0x22 := by decide
theorem test_jgt_taken :
    afterStep { coreAt 0x20 [0x57, 0x01] [(1, 0x40)] with fl := 0x02 } State.pc = some 0x40 := by decide
theorem test_jgt_falls_through :
    afterStep { coreAt 0x20 [0x57, 0x01] [(1, 0x40)] with fl := 0x01 } State.pc = some 0x22 := by decide
theorem test_jge_taken :
    afterStep { coreAt 0x20 [0x5A, 0x01] [(1, 0x40)] with fl := 0x01 } State.pc = some 0x40 := by decide
theorem test_jge_falls_through :
    afterStep { coreAt 0x20 [0x5A, 0x01] [(1, 0x40)] with fl := 0x04 } State.pc = some 0x22 := by decide
theorem test_jlt_taken :
    afterStep { coreAt 0x20 [0x58, 0x01] [(1, 0x40)] with fl := 0x04 } State.pc = some 0x40 := by decide
theorem test_jlt_falls_through :
    afterStep { coreAt 0x20 [0x58, 0x01] [(1, 0x40)] with fl := 0x02 } State.pc = some 0x22 := by decide
theorem test_jle_taken :
    afterStep { coreAt 0x20 [0x59, 0x01] [(1, 0x40)] with fl := 0x01 } State.pc = some 0x40 := by decide
theorem test_jle_falls_through :
    afterStep { coreAt 0x20 [0x59, 0x01] [(1, 0x40)] with fl := 0x02 } State.pc = some 0x22 := by decide
theorem test_call_pushes :
    afterStep { coreAt 0x06 [0x50, 0x01] [(1, 0x0B)] with hb := 0x0F }
      (fun t => (t.pc, t.readReg 7, t.memRead 0xF3)) = some (0x0B, 0xF3, 0x08) := by decide
theorem test_call_r7_target_first :
    afterStep { coreAt 0x10 [0x50, 0x07] [(7, 0x80)] with hb := 0x20 }
      (fun t => (t.pc, t.readReg 7, t.memRead 0x7F)) = some (0x80, 0x7F, 0x12) := by decide
theorem test_ret_pops :
    afterStep ((coreAt 0x0E [0x11] [(7, 0xF3)]).memWrite 0xF3 0x08) (fun t => (t.pc, t.readReg 7)) = some (0x08, 0xF4) := by decide
theorem test_push_r7 :
    afterStep { coreAt 0x0B [0x45, 0x07] [] with hb := 0x0A } (fun t => (t.readReg 7, t.memRead 0xF3)) = some (0xF3, 0xF3) := by decide
theorem test_push_overflows :
    afterStep { coreAt 0x20 [0x45, 0x00] [(7, 0x0C)] with hb := 0x0B } (fun t => (stopOf t, t.readReg 7, t.pc)) =
      some ((.fault, some ⟨.stackOverflow, 0x20⟩), 0x0C, 0x22) := by decide
theorem test_pop_sp_wraps :
    afterStep ((coreAt 0x20 [0x46, 0x02] [(7, 0xFF)]).memWrite 0xFF 0x12)
      (fun t => (t.readReg 2, t.readReg 7)) = some (0x12, 0x00) := by decide
theorem test_pop_r7 :
    afterStep ((coreAt 0x20 [0x46, 0x07] [(7, 0xF3)]).memWrite 0xF3 0xF3) (fun t => t.readReg 7) = some 0xF4 := by decide
theorem test_ldi_sp :
    afterStep (coreAt 0x00 [0x82, 0x07, 0x80] []) (fun t => (t.readReg 7, t.pc)) = some (0x80, 0x03) := by decide
theorem test_ldi_alias_stale_latches :
    afterStep { coreAt 0x05 [0x02] [] with opa := 0x01, opb := 0x05 } (fun t => (t.readReg 1, t.pc)) =
      some (0x05, 0x06) := by decide
theorem test_ld_indirect :
    afterStep ((coreAt 0x1C [0x83, 0x05, 0x04] [(4, 0xF0)]).memWrite 0xF0 0x0F) (fun t => t.readReg 5) = some 0x0F := by decide
theorem test_st_indirect :
    afterStep (coreAt 0x19 [0x84, 0x04, 0x00] [(4, 0xF0), (0, 0x0F)]) (fun t => t.memRead 0xF0) = some 0x0F := by decide
theorem test_prn_decimal :
    afterStep (coreAt 0x09 [0x47, 0x00] [(0, 0xFF)]) State.outputBytes = some [0x32, 0x35, 0x35] := by decide
theorem test_prn_zero : afterStep (coreAt 0x09 [0x47, 0x00] []) State.outputBytes = some [0x30] := by decide
theorem test_pra_memory_byte :
    afterStep ((coreAt 0x09 [0x48, 0x01] [(1, 0xF0)]).memWrite 0xF0 0x48) State.outputBytes = some [0x48] := by decide
theorem test_hlt_halts : afterStep (coreAt 0x0B [0x01] []) (fun t => (t.run, t.pc)) = some (.halted, 0x0C) := by decide
theorem test_nop_advances : afterStep (coreAt 0x05 [0x00] []) State.pc = some 0x06 := by decide
theorem test_nop_alias_loads_latches :
    afterStep (coreAt 0x05 [0x80, 0x11, 0x22] []) (fun t => (t.pc, t.opa, t.opb)) = some (0x08, 0x11, 0x22) := by decide
theorem test_int_operand_unchecked :
    afterStep (coreAt 0x07 [0x52, 0xFF] []) (fun t => (t.pc, t.run)) = some (0x09, .running) := by decide
theorem test_iret_advances :
    afterStep (coreAt 0x07 [0x13] []) (fun t => (t.pc, t.readReg 7)) = some (0x08, 0xF4) := by decide
theorem test_unknown_opcode :
    afterStep (coreAt 0x05 [0x09] []) (fun t => (stopOf t, t.pc, t.ir)) =
      some ((.fault, some ⟨.unknownOpcode, 0x05⟩), 0x05, 0x09) := by decide
theorem test_branch_wraps_at_top :
    afterStep { coreAt 0xFE [0x59, 0x01] [] with fl := 0x02 } State.pc = some 0x00 := by decide
theorem test_operands_wrap_at_top :
    afterStep (coreAt 0xFF [0x82, 0x02, 0x2A] []) (fun t => (t.readReg 2, t.pc)) = some (0x2A, 0x02) := by decide
theorem test_fetch_word :
    (nextOf (step (State.reset.withFetchWord 24 0x2A0382))).map (fun t => t.readReg 3) = some 0x2A := by decide
theorem test_table_word : decodeTableWord 24 0x0100A0 = some (.add [0x00, 0x01]) := by decide
theorem test_table_word_short : decodeTableWord 8 0x50 = some (.call [0x00]) := by decide

/-! ### Witnesses: concrete states and operands that meet the hypotheses of each obligation -/

/-- R0 = 5, R1 = 9, R2 = 0x40, R3 = 0, SP = 0xF4, pc = 0x20, HB = 0x0B. -/
def sample : State := { coreAt 0x20 [] [(0, 5), (1, 9), (2, 0x40)] with hb := 0x0B }

/-- The same with another SP. -/
def sampleSp (sp : Byte) : State := sample.writeReg 7 sp

theorem witness_DecodeOfEncode :
    (Instr.ldi [0x00, 0xFF]).wf = true ∧ (Instr.jmp []).wf = true ∧
    decode (encode (.ldi [0x00, 0xFF]) ++ [0x09]) = .ok (.ldi [0x00, 0xFF], [0x09]) := by decide

theorem witness_EncodeOfDecode : decode [0x60, 0x03, 0x09] = .ok (.add [0x03], [0x09]) := by decide

theorem witness_OpcodeByteClasses :
    ([0x09, 0x0F, 0x1B, 0x1F, 0x2E, 0x2F, 0x30, 0x3F, 0x70, 0xC0, 0xFF] : List Byte).all illegalByte = true ∧
    ([0x00, 0x08, 0x10, 0x1A, 0x20, 0x2D, 0xAD] : List Byte).any illegalByte = false ∧
    canonicalByte 0xA0 = true ∧ canonicalByte 0x60 = false := by decide

theorem witness_StepRunsDecodedInstr :
    let s := coreAt 0xFE [0xA0, 0x00, 0x01] []
    s.run = .running ∧ (Instr.add [0x00, 0x01]).wf = true ∧ encode (.add [0x00, 0x01]) = [0xA0, 0x00, 0x01] ∧
      s.memRead (s.pc + 0) = 0xA0 ∧ s.memRead (s.pc + 1) = 0x00 ∧ s.memRead (s.pc + 2) = 0x01 := by decide

theorem witness_UnknownOpcodeStops :
    (let s := coreAt 0x05 [0x09] []; s.run = .running ∧ illegalByte (s.memRead s.pc) = true) ∧
    (let s := coreAt 0x05 [0xC0] []; s.run = .running ∧ illegalByte (s.memRead s.pc) = true) ∧
    (let s := coreAt 0x05 [0xA3, 0x00, 0x01] []
     illegalByte (s.memRead s.pc) = false ∧ ∃ t, step s = .next t ∧ t.run = .fault) := by
  exact ⟨by decide, by decide, by decide, _, rfl, by decide⟩

theorem witness_LatchesHoldOperandBytes :
    (∃ t, exec (.ldi [0x02]) sample = .next t ∧ t.opa = 0x02 ∧ t.opb = sample.opb) ∧
    (Instr.prn [0x01]).canonical = true ∧ (Instr.ldi [0x02]).canonical = false ∧
    ∃ t, exec (.prn [0x01]) sample = .next t := by
  exact ⟨⟨_, rfl, by decide, by decide⟩, by decide, by decide, _, rfl⟩

theorem witness_IrHoldsFetchedByte :
    (∃ t, step (coreAt 0x05 [0x47, 0x00] []) = .next t ∧ t.ir = 0x47) ∧
    ∃ t, exec (.ldi [0x00, 0x07]) sample = .next t ∧ t.ir = sample.ir := by
  exact ⟨⟨_, rfl, by decide⟩, _, rfl, by decide⟩

theorem witness_LoopAdvancesPc :
    (∃ t, exec (.inc [0x00]) sample = .next t) ∧ (Instr.inc [0x00]).row.manualPc = false ∧
    afterInstr [0x00] sample = 0x22 := by
  exact ⟨⟨_, rfl⟩, by decide, by decide⟩

theorem witness_StopStatesAreTerminal :
    (let s := coreAt 0x05 [0x01] []
     s.run = .running ∧ decode s.fetchBytes = .ok (.hlt [], []) ∧ ∃ t, step s = .next t ∧ t.run = .halted) ∧
    (∃ t, step (coreAt 0x05 [0xFF] []) = .next t ∧ t.run = .fault) ∧
    State.run { sample with run := .halted } = .halted ∧ State.run { sample with run := .fault } = .fault := by
  exact ⟨⟨by decide, by decide, _, rfl, by decide⟩, ⟨_, rfl, by decide⟩, rfl, rfl⟩

theorem witness_RunningCoreSteps :
    sample.run = .running ∧ nextOf (step sample) ≠ none ∧
    nextOf (step { sample with run := .halted }) = none := by decide

/-- Two registers of an F2RR operation, the highest register among them, and a byte that names none in each place. -/
theorem witness_AddSubMulModulo256 :
    Names (opaOf [0x00, 0x07] sample) 0 ∧ Names (opbOf [0x00, 0x07] sample) 7 ∧
    NamesNone (opaOf [0x08, 0x00] sample) ∧ NamesNone (opbOf [0x00, 0xFF] sample) := by decide

theorem witness_NotIncDecResults : Names (opaOf [0x07] sample) 7 ∧ NamesNone (opaOf [0x08] sample) := by decide

theorem witness_AndOrXorBitwise :
    Names (opaOf [0x00, 0x01] sample) 0 ∧ Names (opbOf [0x00, 0x01] sample) 1 ∧
    NamesNone (opaOf [0x08, 0x01] sample) ∧ NamesNone (opbOf [0x00, 0x08] sample) := by decide

theorem witness_DivModResults :
    Names (opaOf [0x00, 0x01] sample) 0 ∧ Names (opbOf [0x00, 0x01] sample) 1 ∧ sample.readReg 1 ≠ 0 ∧
    Names (opbOf [0x00, 0x03] sample) 3 ∧ sample.readReg 3 = 0 ∧
    NamesNone (opaOf [0x08, 0x03] sample) ∧ NamesNone (opbOf [0x00, 0x08] sample) := by decide

theorem witness_ShiftResults :
    Names (opaOf [0x00, 0x04] sample) 0 ∧ Names (opbOf [0x00, 0x04] sample) 4 ∧
    8 ≤ ((sample.writeReg 4 8).readReg 4).toNat ∧ ¬ 8 ≤ ((sample.writeReg 4 7).readReg 4).toNat := by decide

theorem witness_CompareSetsOneFlag :
    Names (opaOf [0x00, 0x01] sample) 0 ∧ Names (opbOf [0x00, 0x01] sample) 1 := by decide

theorem witness_DivModLaw :
    Names (opaOf [0x01, 0x00] sample) 1 ∧ Names (opbOf [0x01, 0x00] sample) 0 ∧ sample.readReg 0 ≠ 0 := by decide

theorem witness_AddThenSubRestores :
    Names (opaOf [0x00, 0x01] sample) 0 ∧ Names (opbOf [0x00, 0x01] sample) 1 ∧ (0 : RegIndex) ≠ 1 := by decide

theorem witness_FlagsWrittenByCompareReadByBranches :
    (let s := coreAt 0x05 [0xA0, 0x00, 0x01] []
     decode s.fetchBytes = .ok (.add [0x00, 0x01], []) ∧ isCompare (.add [0x00, 0x01]) = false ∧ nextOf (step s) ≠ none) ∧
    Names (opaOf [0x00, 0x01] sample) 0 ∧ Names (opbOf [0x00, 0x01] sample) 1 ∧
    isConditionalBranch (.jmp [0x00]) = false ∧ nextOf (exec (.jmp [0x00]) sample) ≠ none ∧
    nextOf (exec (.jeq [0x00]) sample) ≠ none := by decide

theorem witness_OneFlagAfterFirstCompare :
    Names (opaOf [0x00, 0x01] sample) 0 ∧ Names (opbOf [0x00, 0x01] sample) 1 ∧
    (∃ t, exec (.cmp [0x00, 0x01]) sample = .next t ∧ t.fl = 0x04) ∧
    ∃ t, step { sample with fl := 0x02 } = .next t ∧ t.fl = 0x02 := by
  exact ⟨by decide, by decide, ⟨_, rfl, by decide⟩, _, rfl, by decide⟩

theorem witness_CompareThenBranch :
    Names (opaOf [0x00, 0x01] sample) 0 ∧ Names (opbOf [0x00, 0x01] sample) 1 ∧
    ∃ t, exec (.cmp [0x00, 0x01]) sample = .next t ∧ Names (opaOf [0x02] t) 2 ∧ Names (opaOf [] t) 0 := by
  exact ⟨by decide, by decide, _, rfl, by decide, by decide⟩

theorem witness_JumpsAndBranches : Names (opaOf [0x02] sample) 2 ∧ NamesNone (opaOf [0x08] sample) := by decide

/-- Just above the boundary (SP = 0x0D, HB = 0x0B) the push succeeds; one lower it overflows (E4, section 2.5). -/
theorem witness_CallPushesReturnAddress :
    Names (opaOf [0x02] sample) 2 ∧
    (sampleSp 0x0D).hb.val + 1 < ((sampleSp 0x0D).readReg 7).toNat ∧
    ((sampleSp 0x0C).readReg 7).toNat ≤ (sampleSp 0x0C).hb.val + 1 := by decide

theorem witness_CallThenRetReturns :
    Names (opaOf [0x02] sample) 2 ∧ sample.hb.val + 1 < (sample.readReg 7).toNat ∧
    ∃ t, exec (.call [0x02]) sample = .next t ∧ t.memRead (t.readReg 7) = 0x22 := by
  exact ⟨by decide, by decide, _, rfl, by decide⟩

theorem witness_PushStoresRegister :
    Names (opaOf [0x07] (sampleSp 0x0D)) 7 ∧ Names (opaOf [0x00] (sampleSp 0x0D)) 0 ∧
    (sampleSp 0x0D).hb.val + 1 < ((sampleSp 0x0D).readReg 7).toNat ∧
    ((sampleSp 0x0C).readReg 7).toNat ≤ (sampleSp 0x0C).hb.val + 1 ∧
    ((sampleSp 0x00).readReg 7).toNat ≤ (sampleSp 0x00).hb.val + 1 := by decide

theorem witness_PopLoadsRegister :
    Names (opaOf [0x06] sample) 6 ∧ (6 : RegIndex) ≠ 7 ∧ Names (opaOf [0x07] sample) 7 := by decide

theorem witness_PushThenPopRestores :
    Names (opaOf [0x07] sample) 7 ∧ sample.hb.val + 1 < (sample.readReg 7).toNat ∧
    ∃ t, exec (.push [0x07]) sample = .next t ∧ Names (opaOf [0x07] t) 7 := by
  exact ⟨by decide, by decide, _, rfl, by decide⟩

/-- From SP = 0x0E and HB = 0x0B exactly two pushes fit. -/
theorem witness_PushesUntilHeapBoundary :
    Names 0x00 0 ∧ (sampleSp 0x0E).run = .running ∧ 2 + (sampleSp 0x0E).hb.val + 1 ≤ ((sampleSp 0x0E).readReg 7).toNat ∧
    2 + (sampleSp 0x0E).hb.val + 1 = ((sampleSp 0x0E).readReg 7).toNat ∧
    0 + (sampleSp 0x0E).hb.val + 1 ≤ ((sampleSp 0x0E).readReg 7).toNat := by decide

theorem witness_LoadImmediate : Names (opaOf [0x07, 0xFF] sample) 7 ∧ NamesNone (opaOf [0x08, 0x01] sample) := by decide

theorem witness_LoadAndStore :
    Names (opaOf [0x02, 0x00] sample) 2 ∧ Names (opbOf [0x02, 0x00] sample) 0 := by decide

theorem witness_StoreSeenByNextFetch :
    let s := sample.writeReg 2 0x23
    Names (opaOf [0x02, 0x00] s) 2 ∧ Names (opbOf [0x02, 0x00] s) 0 ∧ s.run = .running ∧
      afterInstr [0x02, 0x00] s = s.readReg 2 := by decide

theorem witness_PrintAppendsOutput : Names (opaOf [0x00] sample) 0 ∧ sample.readReg 0 = 5 := by decide

theorem witness_OutputIsAppendOnly :
    let s := coreAt 0x05 [0xA0, 0x00, 0x01] []
    nextOf (step s) ≠ none ∧ decode s.fetchBytes = .ok (.add [0x00, 0x01], []) ∧ isPrint (.add [0x00, 0x01]) = false := by
  decide

theorem witness_NopOnlyAdvances : State.reset.run = .running ∧ ∀ a, State.reset.memRead a = 0x00 := by
  exact ⟨rfl, fun _ => rfl⟩

theorem witness_IllegalRegisterRaised :
    (namesRa (.jeq [0x08]) = true ∧ NamesNone (opaOf [0x08] sample)) ∧
    (namesRb (.add [0x00, 0xFF]) = true ∧ NamesNone (opbOf [0x00, 0xFF] sample)) := by decide

/-- One instruction of each cause, one with two reasons (the register check comes first), and one of none. -/
theorem witness_CausesAndPriority :
    causeOf (.div [0x08, 0x03]) sample = some .illegalRegister ∧ causeOf (.div [0x00, 0x03]) sample = some .divisionByZero ∧
    causeOf (.push [0x00]) (sampleSp 0x0C) = some .stackOverflow ∧ causeOf (.push [0x00]) (sampleSp 0x0D) = none ∧
    nextOf (exec (.div [0x00, 0x03]) sample) ≠ none ∧ nextOf (exec (.push [0x00]) (sampleSp 0x0D)) ≠ none := by decide

theorem witness_FaultEntryIsPrecise :
    (let s := coreAt 0x05 [0xFF] []
     (∃ why, decode s.fetchBytes = .error why) ∧ ∃ t, step s = .next t ∧ t.run = .fault) ∧
    (let s := coreAt 0x05 [0xA3, 0x00, 0x01] []
     decode s.fetchBytes = .ok (.div [0x00, 0x01], []) ∧ ∃ t, step s = .next t ∧ t.run = .fault) ∧
    (let s := coreAt 0x05 [0x55, 0x09] []
     decode s.fetchBytes = .ok (.jeq [0x09], []) ∧ ∃ t, step s = .next t ∧ t.run = .fault ∧ t.pc = 0x05) := by
  exact ⟨⟨⟨.countThree, by decide⟩, _, rfl, by decide⟩, ⟨by decide, _, rfl, by decide⟩, by decide, _, rfl, by decide, by decide⟩

theorem witness_RegistersWritten :
    nextOf (exec (.add [0x00, 0x01]) sample) ≠ none ∧ ¬ mayWrite (.add [0x00, 0x01]) sample 1 ∧
    mayWrite (.add [0x00, 0x01]) sample 0 := by
  exact ⟨by decide, by simp [mayWrite, Names, opaOf], by simp [mayWrite, Names, opaOf]⟩

theorem witness_MemoryWritten :
    nextOf (exec (.st [0x02, 0x00]) sample) ≠ none ∧ storeAddress (.st [0x02, 0x00]) sample = some 0x40 ∧
    storeAddress (.push [0x00]) sample = some 0xF3 ∧ storeAddress (.ld [0x02, 0x00]) sample = none := by decide

theorem witness_MemoryRead :
    nextOf (exec (.ld [0x00, 0x02]) sample) ≠ none ∧ loadAddress (.ld [0x00, 0x02]) sample = some 0x40 ∧
    Memory.read [(0x41, 7)] 0x40 = sample.memRead 0x40 ∧ loadAddress (.add [0x00, 0x02]) sample = none := by decide

theorem witness_LoadImagePlacesBytes :
    (List.replicate 256 (0x01 : Byte)).length ≤ 256 ∧ 256 < (List.replicate 257 (0x01 : Byte)).length ∧
    ((State.reset.loadImage [0x82, 0x00]).map fun t => (t.hb.val, t.memRead 0)) = some (2, 0x82) ∧
    State.reset.loadImage [] = some State.reset := by
  exact ⟨by rw [List.length_replicate], by rw [List.length_replicate]; exact Nat.lt_succ_self 256, by decide, by decide⟩

theorem witness_HostObserves :
    (∃ t, step (coreAt 0x05 [0xFF] []) = .next t ∧ t.run = .fault) ∧
    sample.status = ⟨.running, none⟩ ∧ State.status { sample with run := .halted } = ⟨.halted, none⟩ ∧
    State.status { sample with run := .fault, record := some ⟨.stackOverflow, 0x20⟩ } =
      ⟨.fault, some ⟨.stackOverflow, 0x20⟩⟩ ∧
    sample.stoppedView = none ∧ State.stoppedView { sample with run := .halted } ≠ none := by
  exact ⟨⟨_, rfl, by decide⟩, by decide, by decide, by decide, by decide, by decide⟩

theorem witness_StepKeepsInvariant :
    (coreAt 0x20 [0x84, 0x02, 0x00] [(2, 0x40), (0, 1)]).Inv ∧
    nextOf (step (coreAt 0x20 [0x84, 0x02, 0x00] [(2, 0x40), (0, 1)])) ≠ none := by decide

theorem witness_ResetMeetsInvariant :
    sample.mem.wf = true ∧ State.reset.Inv ∧ State.reset.loadImage [0x01] ≠ none := by decide

end Sys2Proof.Tests
end

/-! SUPPORT. What every step keeps, and what a step depends on: the statements about the CORE's state. -/

namespace Sys2Proof.Proofs

open Sys2Proof.Machine Sys2Proof.Claims

/-! ### The operand latches and the state a handler starts from -/

section Start
variable (manualPc : Bool) (ops : List Byte) (s : State)

@[simp] theorem latch_opa (ops : List Byte) (s : State) : (s.latch ops).opa = opaOf ops s := by
  match ops with
  | [] => rfl
  | [_] => rfl
  | _ :: _ :: _ => rfl

@[simp] theorem latch_opb (ops : List Byte) (s : State) : (s.latch ops).opb = opbOf ops s := by
  match ops with
  | [] => rfl
  | [_] => rfl
  | _ :: _ :: _ => rfl

theorem opaOf_congr {s s' : State} (h : s.opa = s'.opa) : opaOf ops s = opaOf ops s' := by
  cases ops with
  | nil => exact h
  | cons => rfl

theorem opbOf_congr {s s' : State} (h : s.opb = s'.opb) : opbOf ops s = opbOf ops s' := by
  match ops with
  | [] => exact h
  | [_] => exact h
  | _ :: _ :: _ => rfl

@[simp] theorem handlerStart_fl : (handlerStart manualPc ops s).fl = s.fl := by cases manualPc <;> simp [handlerStart]
@[simp] theorem handlerStart_ir : (handlerStart manualPc ops s).ir = s.ir := by cases manualPc <;> simp [handlerStart]
@[simp] theorem handlerStart_run : (handlerStart manualPc ops s).run = s.run := by cases manualPc <;> simp [handlerStart]
@[simp] theorem handlerStart_record : (handlerStart manualPc ops s).record = s.record := by
  cases manualPc <;> simp [handlerStart]
@[simp] theorem handlerStart_mem : (handlerStart manualPc ops s).mem = s.mem := by cases manualPc <;> simp [handlerStart]
@[simp] theorem handlerStart_hb : (handlerStart manualPc ops s).hb = s.hb := by cases manualPc <;> simp [handlerStart]
@[simp] theorem handlerStart_output : (handlerStart manualPc ops s).output = s.output := by
  cases manualPc <;> simp [handlerStart]
@[simp] theorem handlerStart_opa : (handlerStart manualPc ops s).opa = opaOf ops s := by
  cases manualPc <;> simp [handlerStart]
@[simp] theorem handlerStart_opb : (handlerStart manualPc ops s).opb = opbOf ops s := by
  cases manualPc <;> simp [handlerStart]
@[simp] theorem handlerStart_pc : (handlerStart false ops s).pc = afterInstr ops s := nextPc_eq s ops

end Start

/-! ### What every effect of a handler keeps -/

section Effects
variable {pc : Byte} {manualPc : Bool} {b t : State}

theorem effect_ir (h : Effect pc b manualPc t) : t.ir = b.ir := by cases h <;> rfl

theorem effect_opa (h : Effect pc b manualPc t) : t.opa = b.opa := by cases h <;> rfl

theorem effect_opb (h : Effect pc b manualPc t) : t.opb = b.opb := by cases h <;> rfl

theorem effect_hb (h : Effect pc b manualPc t) : t.hb = b.hb := by cases h <;> rfl

/-- A handler with manual-PC flag 0 leaves pc where the loop put it (R69). -/
theorem effect_pc (h : Effect pc b false t) : t.pc = b.pc := by cases h <;> rfl

/-- FL stays, or becomes what a compare gives (R20). -/
theorem effect_fl (h : Effect pc b manualPc t) : t.fl = b.fl ∨ ∃ x y, t.fl = compareFlags x y := by
  cases h with
  | compared x y => exact .inr ⟨x, y, rfl⟩
  | _ => exact .inl rfl

/-- The output stream stays, or one event is appended (R110). -/
theorem effect_output (h : Effect pc b manualPc t) : t.output = b.output ∨ ∃ e, t.output = b.output ++ [e] := by
  cases h with
  | emitted e => exact .inr ⟨e, rfl⟩
  | _ => exact .inl rfl

theorem effect_mem_wf (h : Effect pc b manualPc t) (wf : b.mem.wf = true) : t.mem.wf = true := by
  cases h with
  | stored a v => exact memWrite_wf a v wf
  | pushed sp a v => exact memWrite_wf (s := b.setSp sp) a v wf
  | called sp a v target => exact memWrite_wf (s := b.setSp sp) a v wf
  | _ => exact wf

/-- A handler run from a RUNNING CORE without a fault record leaves a record exactly in FAULT (R124). -/
theorem effect_record (h : Effect pc b manualPc t) (running : b.run = .running) (clear : b.record = none) :
    t.run = .fault ↔ t.record.isSome = true := by
  cases h <;> simp [running, clear]

end Effects

/-! ### FL -/

theorem compareFlags_oneFlag (a b : Byte) :
    compareFlags a b = 0x01 ∨ compareFlags a b = 0x02 ∨ compareFlags a b = 0x04 := by
  rw [compareFlags_cases]
  split
  · exact .inl rfl
  · split
    · exact .inr (.inl rfl)
    · exact .inr (.inr rfl)

theorem step_fl {s t : State} (h : step s = .next t) : t.fl = s.fl ∨ ∃ x y, t.fl = compareFlags x y := by
  obtain ⟨-, ⟨why, -, rfl⟩ | ⟨i, rest, -, he⟩⟩ := step_cases h
  · exact .inl rfl
  · simpa using effect_fl (exec_effect he)

/-! ### The invariant (R21, R25) -/

theorem record_none_of_inv {s : State} (inv : s.Inv) (running : s.run = .running) : s.record = none := by
  obtain ⟨-, -, record⟩ := inv
  simpa [running] using record

theorem step_mem_wf {s t : State} (h : step s = .next t) (wf : s.mem.wf = true) : t.mem.wf = true := by
  obtain ⟨-, ⟨why, -, rfl⟩ | ⟨i, rest, -, he⟩⟩ := step_cases h
  · exact wf
  · exact effect_mem_wf (exec_effect he) (by simpa using wf)

theorem step_flLegal {s t : State} (h : step s = .next t) (legal : s.flLegal) : t.flLegal := by
  obtain e | ⟨x, y, e⟩ := step_fl h
  · simpa [State.flLegal, e] using legal
  · exact .inr (by simpa [e] using compareFlags_oneFlag x y)

theorem step_record {s t : State} (h : step s = .next t) (clear : s.record = none) :
    t.run = .fault ↔ t.record.isSome = true := by
  obtain ⟨running, ⟨why, -, rfl⟩ | ⟨i, rest, -, he⟩⟩ := step_cases h
  · simp
  · exact effect_record (exec_effect he) (by simpa using running) (by simpa using clear)

/-- Settles O50: a step keeps each part of the invariant, whichever effect the handler has. -/
theorem stepKeepsInvariant : Obligations.StepKeepsInvariant := by
  intro s t inv h
  obtain ⟨running, -⟩ := step_cases h
  have clear := record_none_of_inv inv running
  obtain ⟨wf, legal, -⟩ := inv
  exact ⟨step_mem_wf h wf, step_flLegal h legal, step_record h clear⟩

/-! ### Two runs that differ in IR, FL or a latch only -/

/-- A view of the state that may hide IR, FL, OPA and OPB: each is seen through a function, `id` where it is not hidden. -/
structure View where
  ir  : Byte → Byte
  fl  : Byte → Byte
  opa : Byte → Byte
  opb : Byte → Byte

/-- What the view lets be seen of the state. -/
def View.visible (m : View) (s : State) : State :=
  { s with ir := m.ir s.ir, fl := m.fl s.fl, opa := m.opa s.opa, opb := m.opb s.opb }

/-- The two states look the same. -/
def View.Same (m : View) (s s' : State) : Prop := m.visible s = m.visible s'

/-- Both outcomes are next states, and these look the same. -/
def View.SameNext (m : View) (r r' : Result) : Prop := ∃ t u, r = .next t ∧ r' = .next u ∧ m.Same t u

/-- Everything but IR. -/
def View.hidingIr : View := ⟨fun _ => 0, id, id, id⟩

/-- Everything but FL. -/
def View.hidingFl : View := ⟨id, fun _ => 0, id, id⟩

/-- Everything but the operand latches. -/
def View.hidingLatches : View := ⟨id, id, fun _ => 0, fun _ => 0⟩

theorem View.Same.eq_setIr {t u : State} (h : hidingIr.Same t u) : u = { t with ir := u.ir } :=
  congrArg (fun v : State => { v with ir := u.ir }) (Eq.symm h)

theorem View.Same.eq_setFl {t u : State} (h : hidingFl.Same t u) : u = { t with fl := u.fl } :=
  congrArg (fun v : State => { v with fl := u.fl }) (Eq.symm h)

theorem View.Same.eq_setLatches {t u : State} (h : hidingLatches.Same t u) : u = { t with opa := u.opa, opb := u.opb } :=
  congrArg (fun v : State => { v with opa := u.opa, opb := u.opb }) (Eq.symm h)

section TwoRuns
variable {m : View} {s s' : State} {ops : List Byte}

namespace View.Same

/-- An update that acts on what is seen keeps two states alike. -/
theorem map (f g : State → State) (sees : ∀ s, m.visible (f s) = g (m.visible s)) (h : m.Same s s') :
    m.Same (f s) (f s') := by
  rw [View.Same, sees, sees, h]

/-- What is read of the fields no view hides is alike in two states that look the same. -/
theorem read {α : Type} (f : State → α) (sees : ∀ s, f (m.visible s) = f s) (h : m.Same s s') : f s = f s' := by
  rw [← sees s, h, sees]

theorem pc (h : m.Same s s') : s.pc = s'.pc := h.read State.pc fun _ => rfl
theorem readReg (h : m.Same s s') (r : RegIndex) : s.readReg r = s'.readReg r := h.read (State.readReg · r) fun _ => rfl
theorem sp (h : m.Same s s') : s.sp = s'.sp := h.readReg _
theorem memRead (h : m.Same s s') (a : Byte) : s.memRead a = s'.memRead a := h.read (State.memRead · a) fun _ => rfl
theorem stackCheck (h : m.Same s s') : s.stackCheck = s'.stackCheck := h.read State.stackCheck fun _ => rfl
theorem nextPc (h : m.Same s s') (ops : List Byte) : s.nextPc ops = s'.nextPc ops :=
  h.read (State.nextPc · ops) fun _ => rfl

theorem raise (h : m.Same s s') (c : Cause) (fpc : Byte) : m.Same (s.raise c fpc) (s'.raise c fpc) :=
  h.map (State.raise · c fpc) (State.raise · c fpc) fun _ => rfl
theorem writeReg (h : m.Same s s') (r : RegIndex) (v : Byte) : m.Same (s.writeReg r v) (s'.writeReg r v) :=
  h.map (State.writeReg · r v) (State.writeReg · r v) fun _ => rfl
theorem setSp (h : m.Same s s') (v : Byte) : m.Same (s.setSp v) (s'.setSp v) := h.writeReg _ v
theorem setPc (h : m.Same s s') (a : Byte) : m.Same (s.setPc a) (s'.setPc a) :=
  h.map (State.setPc · a) (State.setPc · a) fun _ => rfl
theorem memWrite (h : m.Same s s') (a v : Byte) : m.Same (s.memWrite a v) (s'.memWrite a v) :=
  h.map (State.memWrite · a v) (State.memWrite · a v) fun _ => rfl
theorem emit (h : m.Same s s') (e : OutEvent) : m.Same (s.emit e) (s'.emit e) :=
  h.map (State.emit · e) (State.emit · e) fun _ => rfl
theorem halt (h : m.Same s s') : m.Same { s with run := .halted } { s' with run := .halted } :=
  h.map (fun s => { s with run := .halted }) (fun s => { s with run := .halted }) fun _ => rfl
theorem setFl (h : m.Same s s') (v : Byte) : m.Same { s with fl := v } { s' with fl := v } :=
  h.map (fun s => { s with fl := v }) (fun s => { s with fl := m.fl v }) fun _ => rfl

theorem latch (h : m.Same s s') (ops : List Byte) : m.Same (s.latch ops) (s'.latch ops) := by
  match ops with
  | [] => exact h
  | [a] => exact h.map (State.latch · [a]) (fun s => { s with opa := m.opa a }) fun _ => rfl
  | a :: b :: rest =>
    exact h.map (State.latch · (a :: b :: rest)) (fun s => { s with opa := m.opa a, opb := m.opb b }) fun _ => rfl

theorem enter (h : m.Same s s') (ops : List Byte) : m.Same (s.enter ops) (s'.enter ops) := by
  rw [State.enter, h.nextPc, State.enter]
  exact (h.latch ops).setPc _

/-- Next states that look the same are next states. -/
theorem next (h : m.Same s s') : m.SameNext (.next s) (.next s') := ⟨s, s', rfl, rfl, h⟩

end View.Same

theorem withRa_same {fpc fpc' : Byte} {k k' : RegIndex → Result} (h : m.Same s s') (hpc : fpc = fpc') (ha : s.opa = s'.opa)
    (hk : ∀ ra, m.SameNext (k ra) (k' ra)) : m.SameNext (withRa fpc s k) (withRa fpc' s' k') := by
  subst hpc
  rw [withRa, withRa, ← ha]
  cases registerOf s.opa with
  | none => exact (h.raise _ _).next
  | some ra => exact hk ra

theorem withRaRb_same {fpc fpc' : Byte} {k k' : RegIndex → RegIndex → Result} (h : m.Same s s') (hpc : fpc = fpc')
    (ha : s.opa = s'.opa) (hb : s.opb = s'.opb) (hk : ∀ ra rb, m.SameNext (k ra rb) (k' ra rb)) :
    m.SameNext (withRaRb fpc s k) (withRaRb fpc' s' k') := by
  refine withRa_same h hpc ha fun ra => ?_
  subst hpc
  rw [← hb]
  cases registerOf s.opb with
  | none => exact (h.raise _ _).next
  | some rb => exact hk ra rb

theorem enterRa_same {k k' : RegIndex → Result} (h : m.Same s s') (ha : opaOf ops s = opaOf ops s')
    (hk : ∀ ra, m.SameNext (k ra) (k' ra)) :
    m.SameNext (withRa s.pc (s.enter ops) k) (withRa s'.pc (s'.enter ops) k') :=
  withRa_same (h.enter ops) h.pc (by simpa using ha) hk

theorem enterRaRb_same {k k' : RegIndex → RegIndex → Result} (h : m.Same s s') (ha : opaOf ops s = opaOf ops s')
    (hb : opbOf ops s = opbOf ops s') (hk : ∀ ra rb, m.SameNext (k ra rb) (k' ra rb)) :
    m.SameNext (withRaRb s.pc (s.enter ops) k) (withRaRb s'.pc (s'.enter ops) k') :=
  withRaRb_same (h.enter ops) h.pc (by simpa using ha) (by simpa using hb) hk

theorem aluBinary_same {f : Byte → Byte → Byte} (h : m.Same s s') (ha : opaOf ops s = opaOf ops s')
    (hb : opbOf ops s = opbOf ops s') : m.SameNext (aluBinary f ops s) (aluBinary f ops s') := by
  have hE := h.enter ops
  refine enterRaRb_same h ha hb fun ra rb => ?_
  rw [hE.readReg, hE.readReg]
  exact (hE.writeReg _ _).next

theorem aluDivide_same {f : Byte → Byte → Byte} (h : m.Same s s') (ha : opaOf ops s = opaOf ops s')
    (hb : opbOf ops s = opbOf ops s') : m.SameNext (aluDivide f ops s) (aluDivide f ops s') := by
  have hE := h.enter ops
  refine enterRaRb_same h ha hb fun ra rb => ?_
  rw [hE.readReg, hE.readReg, h.pc]
  split
  · exact (hE.raise _ _).next
  · exact (hE.writeReg _ _).next

theorem aluUnary_same {f : Byte → Byte} (h : m.Same s s') (ha : opaOf ops s = opaOf ops s') :
    m.SameNext (aluUnary f ops s) (aluUnary f ops s') := by
  have hE := h.enter ops
  refine enterRa_same h ha fun ra => ?_
  rw [hE.readReg]
  exact (hE.writeReg _ _).next

theorem jumpWhen_same {taken : Byte → Bool} (h : m.Same s s') (ha : opaOf ops s = opaOf ops s')
    (hf : taken s.fl = taken s'.fl) : m.SameNext (jumpWhen taken ops s) (jumpWhen taken ops s') := by
  have hL := h.latch ops
  refine withRa_same hL h.pc (by simpa using ha) fun ra => ?_
  rw [latch_fl, latch_fl, hf, hL.readReg, h.nextPc]
  exact (hL.setPc _).next

theorem execCall_same (h : m.Same s s') (ha : opaOf ops s = opaOf ops s') :
    m.SameNext (execCall ops s) (execCall ops s') := by
  have hL := h.latch ops
  refine withRa_same hL h.pc (by simpa using ha) fun ra => ?_
  dsimp only
  rw [hL.readReg, h.nextPc, h.pc, hL.stackCheck]
  cases (s'.latch ops).stackCheck with
  | none => exact (hL.raise _ _).next
  | some nsp =>
    have hS := hL.setSp nsp
    dsimp only
    rw [hS.sp]
    exact ((hS.memWrite _ _).setPc _).next

theorem execPush_same (h : m.Same s s') (ha : opaOf ops s = opaOf ops s') :
    m.SameNext (execPush ops s) (execPush ops s') := by
  have hE := h.enter ops
  refine enterRa_same h ha fun ra => ?_
  rw [h.pc, hE.stackCheck]
  cases (s'.enter ops).stackCheck with
  | none => exact (hE.raise _ _).next
  | some nsp =>
    have hS := hE.setSp nsp
    dsimp only
    rw [hS.sp, hS.readReg]
    exact (hS.memWrite _ _).next

theorem execPop_same (h : m.Same s s') (ha : opaOf ops s = opaOf ops s') :
    m.SameNext (execPop ops s) (execPop ops s') := by
  have hE := h.enter ops
  refine enterRa_same h ha fun ra => ?_
  dsimp only
  rw [hE.sp, hE.memRead]
  have hW := hE.writeReg ra ((s'.enter ops).memRead (s'.enter ops).sp)
  rw [hW.sp]
  exact (hW.setSp _).next

theorem execLdi_same (h : m.Same s s') (ha : opaOf ops s = opaOf ops s') (hb : opbOf ops s = opbOf ops s') :
    m.SameNext (execLdi ops s) (execLdi ops s') := by
  have hE := h.enter ops
  refine enterRa_same h ha fun ra => ?_
  rw [enter_opb, enter_opb, latch_opb, latch_opb, hb]
  exact (hE.writeReg _ _).next

theorem execLd_same (h : m.Same s s') (ha : opaOf ops s = opaOf ops s') (hb : opbOf ops s = opbOf ops s') :
    m.SameNext (execLd ops s) (execLd ops s') := by
  have hE := h.enter ops
  refine enterRaRb_same h ha hb fun ra rb => ?_
  rw [hE.readReg, hE.memRead]
  exact (hE.writeReg _ _).next

theorem execSt_same (h : m.Same s s') (ha : opaOf ops s = opaOf ops s') (hb : opbOf ops s = opbOf ops s') :
    m.SameNext (execSt ops s) (execSt ops s') := by
  have hE := h.enter ops
  refine enterRaRb_same h ha hb fun ra rb => ?_
  rw [hE.readReg, hE.readReg]
  exact (hE.memWrite _ _).next

theorem execCmp_same (h : m.Same s s') (ha : opaOf ops s = opaOf ops s') (hb : opbOf ops s = opbOf ops s') :
    m.SameNext (execCmp ops s) (execCmp ops s') := by
  have hE := h.enter ops
  refine enterRaRb_same h ha hb fun ra rb => ?_
  rw [hE.readReg, hE.readReg]
  exact (hE.setFl _).next

theorem execPrn_same (h : m.Same s s') (ha : opaOf ops s = opaOf ops s') :
    m.SameNext (execPrn ops s) (execPrn ops s') := by
  have hE := h.enter ops
  refine enterRa_same h ha fun ra => ?_
  rw [hE.readReg]
  exact (hE.emit _).next

theorem execPra_same (h : m.Same s s') (ha : opaOf ops s = opaOf ops s') :
    m.SameNext (execPra ops s) (execPra ops s') := by
  have hE := h.enter ops
  refine enterRa_same h ha fun ra => ?_
  rw [hE.readReg, hE.memRead]
  exact (hE.emit _).next

theorem execRet_same (h : m.Same s s') : m.SameNext (execRet ops s) (execRet ops s') := by
  have hL := h.latch ops
  rw [execRet, hL.sp, hL.memRead, execRet]
  exact ((hL.setSp _).setPc _).next

/-- An instruction does the same, as far as the view sees, in two states that look the same, when the latches its format
names (R51) and, for a conditional branch, FL agree too: those are all a handler reads of what a view may hide. -/
theorem exec_same (i : Instr) (h : m.Same s s') (ha : 1 ≤ i.row.count → opaOf i.operands s = opaOf i.operands s')
    (hb : i.row.count = 2 → opbOf i.operands s = opbOf i.operands s')
    (hf : isConditionalBranch i = true → s.fl = s'.fl) : m.SameNext (exec i s) (exec i s') := by
  cases i with
  | nop ops => exact (h.enter ops).next
  | hlt ops => exact (h.enter ops).halt.next
  | int ops | iret ops => exact (h.enter ops).next
  | ret ops => exact execRet_same h
  | push ops => exact execPush_same h (ha (by simp [Instr.row]))
  | pop ops => exact execPop_same h (ha (by simp [Instr.row]))
  | call ops => exact execCall_same h (ha (by simp [Instr.row]))
  | ldi ops => exact execLdi_same h (ha (by simp [Instr.row])) (hb rfl)
  | ld ops => exact execLd_same h (ha (by simp [Instr.row])) (hb rfl)
  | st ops => exact execSt_same h (ha (by simp [Instr.row])) (hb rfl)
  | cmp ops => exact execCmp_same h (ha (by simp [Instr.row])) (hb rfl)
  | prn ops => exact execPrn_same h (ha (by simp [Instr.row]))
  | pra ops => exact execPra_same h (ha (by simp [Instr.row]))
  | inc ops | dec ops | not ops => exact aluUnary_same h (ha (by simp [Instr.row]))
  | div ops | mod ops => exact aluDivide_same h (ha (by simp [Instr.row])) (hb rfl)
  | add ops | sub ops | mul ops | and ops | or ops | xor ops | shl ops | shr ops =>
    exact aluBinary_same h (ha (by simp [Instr.row])) (hb rfl)
  | jmp ops => exact jumpWhen_same (taken := fun _ => true) h (ha (by simp [Instr.row])) rfl
  | jeq ops | jne ops | jgt ops | jlt ops | jle ops | jge ops =>
    exact jumpWhen_same h (ha (by simp [Instr.row])) (by rw [hf rfl])

end TwoRuns

/-! ### The latches (R24) -/

/-- A canonical instruction refreshes OPA when its format has an operand. -/
theorem opaOf_of_canonical {i : Instr} (hc : i.canonical = true) (h : 1 ≤ i.row.count) (s s' : State) :
    opaOf i.operands s = opaOf i.operands s' := by
  have len : i.operands.length = i.row.count := by simpa [Instr.canonical] using hc
  match ops : i.operands with
  | [] => simp [ops, ← len] at h
  | _ :: _ => rfl

/-- A canonical instruction refreshes OPB when its format has two operands. -/
theorem opbOf_of_canonical {i : Instr} (hc : i.canonical = true) (h : i.row.count = 2) (s s' : State) :
    opbOf i.operands s = opbOf i.operands s' := by
  have len : i.operands.length = 2 := by simpa [Instr.canonical, h] using hc
  match ops : i.operands with
  | [] | [_] => simp [ops] at len
  | _ :: _ :: _ => rfl

/-- Settles O7: the fetch fills the latches and no handler writes them; two runs of a canonical instruction agree in
everything but the latches. -/
theorem latchesHoldOperandBytes : Obligations.LatchesHoldOperandBytes := by
  refine ⟨fun i s t h => ?_, fun i s t p q canonical h => ?_⟩
  · have effect := exec_effect h
    exact ⟨by simpa using effect_opa effect, by simpa using effect_opb effect⟩
  · have same : View.hidingLatches.Same s { s with opa := p, opb := q } := rfl
    obtain ⟨t', u, ht, hu, htu⟩ := exec_same i same (fun n => opaOf_of_canonical canonical n _ _)
      (fun n => opbOf_of_canonical canonical n _ _) fun _ => rfl
    cases h.symm.trans ht
    exact ⟨u, hu, htu.eq_setLatches⟩

/-! ### IR (R23) and pc (R18, R69) -/

theorem exec_ir {i : Instr} {s t : State} (h : exec i s = .next t) : t.ir = s.ir := by
  simpa using effect_ir (exec_effect h)

theorem step_ir {s t : State} (h : step s = .next t) : t.ir = s.memRead s.pc := by
  obtain ⟨-, ⟨why, -, rfl⟩ | ⟨i, rest, -, he⟩⟩ := step_cases h
  · rfl
  · exact exec_ir he

/-- Which bytes stand from an address on does not depend on IR. -/
theorem bytesAt_setIr (s : State) (b a : Byte) (n : Nat) : State.bytesAt { s with ir := b } a n = s.bytesAt a n := by
  induction n generalizing a with
  | zero => rfl
  | succ n ih => rw [State.bytesAt, ih, State.bytesAt]; rfl

theorem fetchBytes_setIr (s : State) (b : Byte) : State.fetchBytes { s with ir := b } = s.fetchBytes := by
  rw [State.fetchBytes, bytesAt_setIr]
  rfl

theorem step_setIr (s : State) (b : Byte) : step { s with ir := b } = step s := by
  rw [step, fetchBytes_setIr, step]
  rfl

/-- The handler does the same whatever byte is in IR, and leaves that byte there. -/
theorem exec_setIr {i : Instr} {s t : State} (b : Byte) (h : exec i s = .next t) :
    exec i { s with ir := b } = .next { t with ir := b } := by
  have same : View.hidingIr.Same s { s with ir := b } := rfl
  obtain ⟨t', u, ht, hu, htu⟩ := exec_same i same (fun _ => opaOf_congr _ rfl) (fun _ => opbOf_congr _ rfl)
    fun _ => rfl
  cases h.symm.trans ht
  have ir : u.ir = b := exec_ir hu
  rw [hu, ← ir, ← htu.eq_setIr]

/-- Settles O8: the fetch writes IR, no handler does, and neither the fetch nor a handler reads it. -/
theorem irHoldsFetchedByte : Obligations.IrHoldsFetchedByte :=
  ⟨fun _ _ h => step_ir h, step_setIr, fun _ _ _ b h => exec_setIr b h⟩

/-- Settles O9: the loop moves pc before a handler with manual-PC flag 0, and such a handler leaves pc alone. -/
theorem loopAdvancesPc : Obligations.LoopAdvancesPc := by
  intro i s t h
  refine ⟨exec_ir h, fun auto => ?_⟩
  have effect := exec_effect h
  rw [auto] at effect
  simpa using effect_pc effect

/-! ### What an instruction writes (R16, R20, R110) -/

/-- From s to t only CMP changes FL, only a print the output, and no register changes that the reader-and-writer table
does not give the instruction. -/
structure WritesOwn (i : Instr) (s t : State) : Prop where
  fl     : isCompare i = false → t.fl = s.fl
  output : isPrint i = false → t.output = s.output
  regs   : ∀ r, ¬ mayWrite i s r → t.readReg r = s.readReg r

section Writes
variable {i : Instr} {s t : State} {ops : List Byte} {ra : RegIndex}

theorem names_of_namesRa (h : NamesRa ops s ra) : Names (opaOf ops s) ra := by
  rwa [NamesRa, latch_opa] at h

namespace WritesOwn
variable {b : State}

theorem latch : WritesOwn i s (s.latch ops) :=
  ⟨fun _ => latch_fl s ops, fun _ => latch_output s ops, fun r _ => latch_readReg s ops r⟩
theorem enter : WritesOwn i s (s.enter ops) :=
  ⟨fun _ => enter_fl s ops, fun _ => enter_output s ops, fun r _ => enter_readReg s ops r⟩
theorem raise {c : Cause} {fpc : Byte} (h : WritesOwn i s b) : WritesOwn i s (b.raise c fpc) := ⟨h.fl, h.output, h.regs⟩
theorem setPc {a : Byte} (h : WritesOwn i s b) : WritesOwn i s (b.setPc a) := ⟨h.fl, h.output, h.regs⟩
theorem memWrite {a v : Byte} (h : WritesOwn i s b) : WritesOwn i s (b.memWrite a v) := ⟨h.fl, h.output, h.regs⟩

theorem writeReg {v : Byte} (h : WritesOwn i s b) (may : mayWrite i s ra) : WritesOwn i s (b.writeReg ra v) := by
  refine ⟨h.fl, h.output, fun r out => ?_⟩
  have other : r ≠ ra := fun e => out (e ▸ may)
  rw [readReg_writeReg, if_neg other, h.regs r out]

theorem setSp {v : Byte} (h : WritesOwn i s b) (may : mayWrite i s 7) : WritesOwn i s (b.setSp v) := h.writeReg may

end WritesOwn

theorem aluBinary_writesOwn {f : Byte → Byte → Byte} (may : ∀ r, Names (opaOf ops s) r → mayWrite i s r)
    (h : aluBinary f ops s = .next t) : WritesOwn i s t := by
  obtain ⟨-, rfl⟩ | ⟨ra, rb, ha, -, rfl⟩ := aluBinary_cases h
  · exact WritesOwn.enter.raise
  · exact WritesOwn.enter.writeReg (may ra (names_of_namesRa ha))

theorem aluUnary_writesOwn {f : Byte → Byte} (may : ∀ r, Names (opaOf ops s) r → mayWrite i s r)
    (h : aluUnary f ops s = .next t) : WritesOwn i s t := by
  obtain ⟨-, rfl⟩ | ⟨ra, ha, rfl⟩ := aluUnary_cases h
  · exact WritesOwn.enter.raise
  · exact WritesOwn.enter.writeReg (may ra (names_of_namesRa ha))

theorem aluDivide_writesOwn {f : Byte → Byte → Byte} (may : ∀ r, Names (opaOf ops s) r → mayWrite i s r)
    (h : aluDivide f ops s = .next t) : WritesOwn i s t := by
  obtain ⟨-, rfl⟩ | ⟨ra, rb, ha, -, ⟨-, rfl⟩ | ⟨-, rfl⟩⟩ := aluDivide_cases h
  · exact WritesOwn.enter.raise
  · exact WritesOwn.enter.raise
  · exact WritesOwn.enter.writeReg (may ra (names_of_namesRa ha))

theorem jumpWhen_writesOwn {taken : Byte → Bool} (h : jumpWhen taken ops s = .next t) : WritesOwn i s t := by
  obtain ⟨-, rfl⟩ | ⟨ra, -, rfl⟩ := jumpWhen_cases h
  · exact WritesOwn.latch.raise
  · exact WritesOwn.latch.setPc

theorem exec_writesOwn (h : exec i s = .next t) : WritesOwn i s t := by
  cases i with
  | nop ops | int ops | iret ops => cases h; exact WritesOwn.enter
  | hlt ops =>
    cases h
    obtain ⟨fl, output, regs⟩ : WritesOwn (.hlt ops) s (s.enter ops) := WritesOwn.enter
    exact ⟨fl, output, regs⟩
  | ret ops =>
    have sp : mayWrite (.ret ops) s 7 := rfl
    cases h
    exact (WritesOwn.latch.setSp sp).setPc
  | ldi ops =>
    obtain ⟨-, rfl⟩ | ⟨ra, ha, rfl⟩ := execLdi_cases h
    · exact WritesOwn.enter.raise
    · exact WritesOwn.enter.writeReg (names_of_namesRa ha)
  | ld ops =>
    obtain ⟨-, rfl⟩ | ⟨ra, rb, ha, -, rfl⟩ := execLd_cases h
    · exact WritesOwn.enter.raise
    · exact WritesOwn.enter.writeReg (names_of_namesRa ha)
  | st ops =>
    obtain ⟨-, rfl⟩ | ⟨ra, rb, -, -, rfl⟩ := execSt_cases h
    · exact WritesOwn.enter.raise
    · exact WritesOwn.enter.memWrite
  | push ops =>
    have sp : mayWrite (.push ops) s 7 := rfl
    obtain ⟨-, rfl⟩ | ⟨ra, -, ⟨-, rfl⟩ | ⟨-, rfl⟩⟩ := execPush_cases h
    · exact WritesOwn.enter.raise
    · exact WritesOwn.enter.raise
    · exact (WritesOwn.enter.setSp sp).memWrite
  | pop ops =>
    obtain ⟨-, rfl⟩ | ⟨ra, ha, rfl⟩ := execPop_cases h
    · exact WritesOwn.enter.raise
    · have own : mayWrite (.pop ops) s ra := Or.inl (names_of_namesRa ha)
      have sp : mayWrite (.pop ops) s 7 := Or.inr rfl
      exact (WritesOwn.enter.writeReg own).setSp sp
  | call ops =>
    have sp : mayWrite (.call ops) s 7 := rfl
    obtain ⟨-, rfl⟩ | ⟨ra, -, ⟨-, rfl⟩ | ⟨-, rfl⟩⟩ := execCall_cases h
    · exact WritesOwn.latch.raise
    · exact WritesOwn.latch.raise
    · exact (WritesOwn.latch.setSp sp).memWrite.setPc
  | prn ops =>
    obtain ⟨-, rfl⟩ | ⟨ra, -, rfl⟩ := execPrn_cases h
    · exact WritesOwn.enter.raise
    · exact ⟨fun _ => enter_fl s ops, nofun, fun r _ => enter_readReg s ops r⟩
  | pra ops =>
    obtain ⟨-, rfl⟩ | ⟨ra, -, rfl⟩ := execPra_cases h
    · exact WritesOwn.enter.raise
    · exact ⟨fun _ => enter_fl s ops, nofun, fun r _ => enter_readReg s ops r⟩
  | cmp ops =>
    obtain ⟨-, rfl⟩ | ⟨ra, rb, -, -, rfl⟩ := execCmp_cases h
    · exact WritesOwn.enter.raise
    · exact ⟨nofun, fun _ => enter_output s ops, fun r _ => enter_readReg s ops r⟩
  | jmp ops => exact jumpWhen_writesOwn (taken := fun _ => true) (ops := ops) h
  | jeq ops | jne ops | jgt ops | jlt ops | jle ops | jge ops => exact jumpWhen_writesOwn h
  | inc ops | dec ops | not ops => exact aluUnary_writesOwn (fun _ => id) h
  | div ops | mod ops => exact aluDivide_writesOwn (fun _ => id) h
  | add ops | sub ops | mul ops | and ops | or ops | xor ops | shl ops | shr ops =>
    exact aluBinary_writesOwn (fun _ => id) h

end Writes

/-- Settles O42: the register part of what an instruction writes. -/
theorem registersWritten : Obligations.RegistersWritten := fun _ _ _ r h out => (exec_writesOwn h).regs r out

/-! ### HB and the output stream (R27, R110) -/

theorem step_hb {s t : State} (h : step s = .next t) : t.hb = s.hb := by
  obtain ⟨-, ⟨why, -, rfl⟩ | ⟨i, rest, -, he⟩⟩ := step_cases h
  · rfl
  · simpa using effect_hb (exec_effect he)

theorem step_output {s t : State} (h : step s = .next t) : t.output = s.output ∨ ∃ e, t.output = s.output ++ [e] := by
  obtain ⟨-, ⟨why, -, rfl⟩ | ⟨i, rest, -, he⟩⟩ := step_cases h
  · exact .inl rfl
  · simpa using effect_output (exec_effect he)

theorem outputBytes_append {s t : State} {e : List OutEvent} (h : t.output = s.output ++ e) :
    t.outputBytes = s.outputBytes ++ e.flatMap OutEvent.bytes := by
  rw [State.outputBytes, h, List.flatMap_append, State.outputBytes]

theorem step_output_of_no_print {s t : State} (h : step s = .next t)
    (no : ∀ i rest, decode s.fetchBytes = .ok (i, rest) → isPrint i = false) : t.output = s.output := by
  obtain ⟨-, ⟨why, -, rfl⟩ | ⟨i, rest, hd, he⟩⟩ := step_cases h
  · rfl
  · exact (exec_writesOwn he).output (no i rest hd)

/-- Settles O35: a step appends nothing or one event, and only a print appends. -/
theorem outputIsAppendOnly : Obligations.OutputIsAppendOnly := by
  refine fun s t h => ⟨step_hb h, ?_, step_output_of_no_print h⟩
  have grown : ∃ e, t.output = s.output ++ e ∧ e.length ≤ 1 := by
    obtain same | ⟨e, one⟩ := step_output h
    · exact ⟨[], by simpa using same, by simp⟩
    · exact ⟨[e], one, by simp⟩
  obtain ⟨e, ho, len⟩ := grown
  exact ⟨e, ho, len, outputBytes_append ho⟩

/-! ### FL (R20, R21) -/

theorem step_oneFlag {s t : State} (h : step s = .next t) (one : s.fl = 0x01 ∨ s.fl = 0x02 ∨ s.fl = 0x04) :
    t.fl = 0x01 ∨ t.fl = 0x02 ∨ t.fl = 0x04 := by
  obtain e | ⟨x, y, e⟩ := step_fl h
  · rwa [e]
  · rw [e]; exact compareFlags_oneFlag x y

/-- Settles O21: CMP writes one flag, and a step keeps FL or writes one flag. -/
theorem oneFlagAfterFirstCompare : Obligations.OneFlagAfterFirstCompare := by
  refine ⟨fun ops s t ra rb ha hb h => ?_, fun s t h one => step_oneFlag h one⟩
  rw [exec, execCmp_names (ra := ra) (rb := rb) (by simpa using ha) (by simpa using hb)] at h
  cases h
  exact compareFlags_oneFlag _ _

theorem step_fl_of_no_compare {s t : State} (h : step s = .next t)
    (no : ∀ i rest, decode s.fetchBytes = .ok (i, rest) → isCompare i = false) : t.fl = s.fl := by
  obtain ⟨-, ⟨why, -, rfl⟩ | ⟨i, rest, hd, he⟩⟩ := step_cases h
  · rfl
  · exact (exec_writesOwn he).fl (no i rest hd)

/-! CMP takes no value from FL: with FL set first, its whole next state is the same. -/

theorem latch_setFl (ops : List Byte) (s : State) (f : Byte) :
    State.latch { s with fl := f } ops = { s.latch ops with fl := f } := by
  match ops with
  | [] => rfl
  | [_] => rfl
  | _ :: _ :: _ => rfl

theorem enter_setFl (ops : List Byte) (s : State) (f : Byte) :
    State.enter { s with fl := f } ops = { s.enter ops with fl := f } := by
  rw [State.enter, latch_setFl]
  rfl

theorem cmp_setFl {ops : List Byte} {s : State} {ra rb : RegIndex} (f : Byte) (ha : Names (opaOf ops s) ra)
    (hb : Names (opbOf ops s) rb) : exec (.cmp ops) { s with fl := f } = exec (.cmp ops) s := by
  have run := execCmp_names (s := s) (ops := ops) (ra := ra) (rb := rb) (by simpa using ha) (by simpa using hb)
  have run' := execCmp_names (s := { s with fl := f }) (ops := ops) (ra := ra) (rb := rb)
    (by simpa [latch_setFl] using ha) (by simpa [latch_setFl] using hb)
  rw [exec, run', exec, run, enter_setFl]
  rfl

/-- An instruction that is no conditional branch does the same, FL apart, whatever FL is. -/
theorem exec_setFl {i : Instr} {s t : State} (f : Byte) (no : isConditionalBranch i = false) (h : exec i s = .next t) :
    ∃ u, exec i { s with fl := f } = .next u ∧ u = { t with fl := u.fl } := by
  have same : View.hidingFl.Same s { s with fl := f } := rfl
  obtain ⟨t', u, ht, hu, htu⟩ := exec_same i same (fun _ => opaOf_congr _ rfl) (fun _ => opbOf_congr _ rfl)
    fun yes => by simp [no] at yes
  cases h.symm.trans ht
  exact ⟨u, hu, htu.eq_setFl⟩

/-- A jump or branch writes no register, no memory byte and no output. -/
theorem jumpWhen_keeps {taken : Byte → Bool} {ops : List Byte} {s t : State} (h : jumpWhen taken ops s = .next t) :
    t.x = s.x ∧ t.mem = s.mem ∧ t.output = s.output := by
  obtain ⟨-, rfl⟩ | ⟨ra, -, rfl⟩ := jumpWhen_cases h <;> simp

theorem branch_keeps {i : Instr} {s t : State} (branch : isConditionalBranch i = true) (h : exec i s = .next t) :
    t.x = s.x ∧ t.mem = s.mem ∧ t.output = s.output := by
  cases i with
  | jeq ops | jne ops | jgt ops | jlt ops | jle ops | jge ops => exact jumpWhen_keeps h
  | _ => cases branch

/-- FL reaches no register, no memory byte and no output. -/
theorem exec_setFl_data {i : Instr} {s t : State} (f : Byte) (h : exec i s = .next t) :
    ∃ u, exec i { s with fl := f } = .next u ∧ u.x = t.x ∧ u.mem = t.mem ∧ u.output = t.output := by
  cases branch : isConditionalBranch i with
  | true =>
    obtain ⟨u, hu⟩ := exec_total i { s with fl := f }
    obtain ⟨x, mem, output⟩ := branch_keeps branch h
    obtain ⟨x', mem', output'⟩ := branch_keeps branch hu
    exact ⟨u, hu, x'.trans x.symm, mem'.trans mem.symm, output'.trans output.symm⟩
  | false =>
    obtain ⟨u, hu, e⟩ := exec_setFl f branch h
    exact ⟨u, hu, by rw [e], by rw [e], by rw [e]⟩

/-- Settles O20: writers by what an instruction writes, readers by two runs that differ in FL. -/
theorem flagsWrittenByCompareReadByBranches : Obligations.FlagsWrittenByCompareReadByBranches :=
  ⟨fun _ _ h no => step_fl_of_no_compare h no, fun _ _ f _ _ ha hb => cmp_setFl f ha hb,
    fun _ _ _ f no h => exec_setFl f no h, fun _ _ _ f h => exec_setFl_data f h⟩

/-! ### Reset and loading (R29, R132, R135) -/

/-- Settles O46: the reset input is written field by field, and State.reset has the latches at 0. -/
theorem resetSetsCoreState : Obligations.ResetSetsCoreState := ⟨fun _ _ _ _ => rfl, 0, 0, 0, rfl⟩

theorem loadImage_fits {s : State} {image : List Byte} (fits : image.length ≤ 256) :
    s.loadImage image = some { s.storeBytes 0 image with hb := ⟨image.length, Nat.lt_succ_of_le fits⟩ } :=
  dif_pos fits

theorem loadImage_too_long {s : State} {image : List Byte} (long : 256 < image.length) : s.loadImage image = none :=
  dif_neg (by omega)

/-- Loading changes memory and HB only. -/
theorem loadImage_eq {s t : State} {image : List Byte} (h : s.loadImage image = some t) :
    t = { s with mem := (s.storeBytes 0 image).mem, hb := t.hb } := by
  by_cases fits : image.length ≤ 256
  · rw [loadImage_fits fits, storeBytes_eq] at h
    cases h
    rfl
  · rw [loadImage_too_long (by omega)] at h
    cases h

/-- Addresses below 256 that differ as numbers differ as bytes. -/
theorem ofNat_ne {k n : Nat} (hk : k < 256) (hn : n < 256) (h : k ≠ n) : BitVec.ofNat 8 k ≠ BitVec.ofNat 8 n :=
  fun e => h (by simpa [Nat.mod_eq_of_lt hk, Nat.mod_eq_of_lt hn] using congrArg BitVec.toNat e)

/-- What a read finds after storing bytes from address n on, when they end by 255. -/
theorem memRead_storeBytes {bytes : List Byte} {s : State} {n k : Nat} (hn : n + bytes.length ≤ 256) (hk : k < 256) :
    (s.storeBytes (BitVec.ofNat 8 n) bytes).memRead (BitVec.ofNat 8 k) =
      if h : n ≤ k ∧ k - n < bytes.length then bytes[k - n] else s.memRead (BitVec.ofNat 8 k) := by
  induction bytes generalizing s n with
  | nil => simp [State.storeBytes]
  | cons v rest ih =>
    have len : n + 1 + rest.length ≤ 256 := by simp at hn; omega
    have next : BitVec.ofNat 8 n + 1 = BitVec.ofNat 8 (n + 1) := (BitVec.ofNat_add n 1).symm
    rw [State.storeBytes, next, ih len]
    rcases Nat.lt_trichotomy k n with below | rfl | above
    · have ne : BitVec.ofNat 8 k ≠ BitVec.ofNat 8 n := ofNat_ne hk (by omega) (by omega)
      rw [dif_neg (by omega), dif_neg (by omega), memRead_memWrite_ne s v ne]
    · simp [memRead_memWrite_same]
    · obtain ⟨j, rfl⟩ : ∃ j, k = n + 1 + j := ⟨k - (n + 1), by omega⟩
      have ne : BitVec.ofNat 8 (n + 1 + j) ≠ BitVec.ofNat 8 n := ofNat_ne hk (by omega) (by omega)
      have tail : n + 1 + j - n = j + 1 := by omega
      simp [tail, memRead_memWrite_ne s v ne, above.le]

/-- Settles O48, from what a read finds after storing bytes from address 0 on. -/
theorem loadImagePlacesBytes : Obligations.LoadImagePlacesBytes := by
  refine ⟨fun s image fits => ?_, fun s image long => loadImage_too_long long⟩
  have read : ∀ k, k < 256 → (s.storeBytes 0 image).memRead (BitVec.ofNat 8 k) =
      if h : k < image.length then image[k] else s.memRead (BitVec.ofNat 8 k) := fun k hk => by
    simpa using memRead_storeBytes (s := s) (n := 0) (bytes := image) (by omega) hk
  refine ⟨_, loadImage_fits fits, loadImage_eq (loadImage_fits fits), rfl, fun k hk => ?_, fun k hk h256 => ?_⟩
  · exact (read k (by omega)).trans (dif_pos hk)
  · exact (read k h256).trans (dif_neg (by omega))

/-- Settles O51: reset writes FL, run and the record with legal values, and loading stores bytes, which keeps memory
canonical. -/
theorem resetMeetsInvariant : Obligations.ResetMeetsInvariant := by
  refine ⟨by decide, fun s ir opa opb wf => ⟨wf, .inl rfl, by simp [State.resetCore]⟩, fun s t image inv h => ?_⟩
  obtain ⟨wf, legal, record⟩ := inv
  rw [loadImage_eq h]
  exact ⟨storeBytes_wf 0 image wf, legal, record⟩

end Sys2Proof.Proofs

/-! SUPPORT. Memory: what an instruction stores, what it reads, and what a fetch after a store finds. -/

namespace Sys2Proof.Proofs

open Sys2Proof.Machine Sys2Proof.Claims

/-! ### Reads after writes (R32, R41) and the fetch after a store (R45) -/

/-- Settles O45: the same address reads as written, every other one as before; a write touches memory alone. -/
theorem memoryReadsLatestWrite : Obligations.MemoryReadsLatestWrite := by
  refine fun s a b v => ⟨?_, rfl⟩
  split
  · next same => rw [same, memRead_memWrite_same]
  · next other => exact memRead_memWrite_ne s v other

/-- A RUNNING CORE always has a next state (R63). -/
theorem step_total {s : State} (running : s.run = .running) : ∃ t, step s = .next t := by
  cases d : decode s.fetchBytes with
  | error why => exact ⟨_, step_unknown running d⟩
  | ok p =>
    obtain ⟨i, rest⟩ := p
    rw [step_decoded running d]
    exact exec_total i s.fetchOpcode

/-- Settles O33: ST leaves pc at the address it stored to, and the next step puts the byte there in IR. -/
theorem storeSeenByNextFetch : Obligations.StoreSeenByNextFetch := by
  intro ops s ra rb ha hb running next
  have stores := execSt_names (s := s) (ops := ops) (ra := ra) (rb := rb) (by simpa using ha) (by simpa using hb)
  obtain ⟨u, hu⟩ := step_total (s := (s.enter ops).memWrite (s.readReg ra) (s.readReg rb)) (by simpa using running)
  have pc : (s.enter ops).pc = s.readReg ra := (nextPc_eq s ops).trans next
  refine ⟨_, u, stores, hu, ?_⟩
  rw [step_ir hu, memWrite_pc, pc, memRead_memWrite_same]

/-! ### The addresses of the access table (R33, R43) -/

theorem namedValue_of_names {s : State} {k : Byte} {r : RegIndex} (h : Names k r) : namedValue s k = some (s.readReg r) := by
  rw [namedValue, h, State.readReg]
  exact Vector.getElem?_eq_getElem r.isLt

/-- Everything an instruction can do to memory: nothing, or one write at the address the access table gives it. -/
theorem exec_mem {i : Instr} {s t : State} (h : exec i s = .next t) :
    t.mem = s.mem ∨ ∃ a v, storeAddress i s = some a ∧ t.mem = s.mem.write a.toNat v := by
  cases i with
  | nop ops | hlt ops | int ops | iret ops => cases h; exact .inl (enter_mem s ops)
  | ret ops => cases h; exact .inl (latch_mem s ops)
  | st ops =>
    obtain ⟨-, rfl⟩ | ⟨ra, rb, ha, -, rfl⟩ := execSt_cases h
    · exact .inl (enter_mem s ops)
    · exact .inr ⟨_, _, namedValue_of_names (names_of_namesRa ha), by rw [memWrite_mem, enter_mem]⟩
  | push ops =>
    obtain ⟨-, rfl⟩ | ⟨ra, -, ⟨-, rfl⟩ | ⟨-, rfl⟩⟩ := execPush_cases h
    · exact .inl (enter_mem s ops)
    · exact .inl (enter_mem s ops)
    · exact .inr ⟨s.sp - 1, _, rfl, by rw [memWrite_mem, setSp_mem, enter_mem]⟩
  | call ops =>
    obtain ⟨-, rfl⟩ | ⟨ra, -, ⟨-, rfl⟩ | ⟨-, rfl⟩⟩ := execCall_cases h
    · exact .inl (latch_mem s ops)
    · exact .inl (latch_mem s ops)
    · exact .inr ⟨s.sp - 1, _, rfl, by rw [setPc_mem, memWrite_mem, setSp_mem, latch_mem]⟩
  | ldi ops | pop ops | prn ops | pra ops | inc ops | dec ops | not ops =>
    obtain ⟨-, rfl⟩ | ⟨ra, -, done⟩ := withRa_cases h
    · exact .inl (enter_mem s ops)
    · cases done; exact .inl (enter_mem s ops)
  | jmp ops | jeq ops | jne ops | jgt ops | jlt ops | jle ops | jge ops =>
    obtain ⟨-, rfl⟩ | ⟨ra, -, done⟩ := withRa_cases h
    · exact .inl (latch_mem s ops)
    · cases done; exact .inl (latch_mem s ops)
  | ld ops | cmp ops | add ops | sub ops | mul ops | and ops | or ops | xor ops | shl ops | shr ops =>
    obtain ⟨-, rfl⟩ | ⟨ra, rb, -, -, done⟩ := withRaRb_cases h
    · exact .inl (enter_mem s ops)
    · cases done; exact .inl (enter_mem s ops)
  | div ops | mod ops =>
    obtain ⟨-, rfl⟩ | ⟨ra, rb, -, -, ⟨-, rfl⟩ | ⟨-, rfl⟩⟩ := aluDivide_cases h
    · exact .inl (enter_mem s ops)
    · exact .inl (enter_mem s ops)
    · exact .inl (enter_mem s ops)

/-- Settles O43: the one write an instruction can make leaves every other address alone. -/
theorem memoryWritten : Obligations.MemoryWritten := by
  intro i s t a h other
  obtain same | ⟨b, v, own, wrote⟩ := exec_mem h
  · rw [State.memRead, same, State.memRead]
  · have ne : a ≠ b := fun e => other (e ▸ own)
    rw [State.memRead, wrote]
    exact memRead_memWrite_ne s v ne

/-! ### Two runs that differ in memory (R33, R43) -/

/-- The state with another memory. -/
def setMem (m : Memory) (s : State) : State := { s with mem := m }

/-- Both outcomes are next states, and they differ in memory at most. -/
def SameNextButMem (r r' : Result) : Prop := ∃ t m', r = .next t ∧ r' = .next (setMem m' t)

section TwoMemories
variable (m : Memory) (s : State) (ops : List Byte)

theorem latch_setMem : (setMem m s).latch ops = setMem m (s.latch ops) := by
  match ops with
  | [] => rfl
  | [_] => rfl
  | _ :: _ :: _ => rfl

theorem enter_setMem : (setMem m s).enter ops = setMem m (s.enter ops) := by
  rw [State.enter, latch_setMem]
  rfl

theorem opa_setMem : (setMem m s).opa = s.opa := rfl
theorem opb_setMem : (setMem m s).opb = s.opb := rfl
theorem stackCheck_setMem : (setMem m s).stackCheck = s.stackCheck := rfl
theorem readReg_setMem (r : RegIndex) : (setMem m s).readReg r = s.readReg r := rfl
theorem sp_setMem : (setMem m s).sp = s.sp := rfl
theorem memRead_setMem (a : Byte) : (setMem m s).memRead a = m.read a.toNat := rfl

variable {m s ops} {fpc : Byte}

theorem withRa_setMem {k k' : RegIndex → Result} (hk : ∀ ra, Names s.opa ra → SameNextButMem (k ra) (k' ra)) :
    SameNextButMem (withRa fpc s k) (withRa fpc (setMem m s) k') := by
  rw [withRa, withRa, opa_setMem]
  cases legal : registerOf s.opa with
  | none => exact ⟨_, m, rfl, rfl⟩
  | some ra => exact hk ra (registerOf_eq_some.mp legal)

theorem latchRa_setMem {k k' : RegIndex → Result} (hk : ∀ ra, SameNextButMem (k ra) (k' ra)) :
    SameNextButMem (withRa fpc (s.latch ops) k) (withRa fpc ((setMem m s).latch ops) k') := by
  rw [latch_setMem]
  exact withRa_setMem fun ra _ => hk ra

theorem enterRa_setMem {k k' : RegIndex → Result} (hk : ∀ ra, Names (opaOf ops s) ra → SameNextButMem (k ra) (k' ra)) :
    SameNextButMem (withRa fpc (s.enter ops) k) (withRa fpc ((setMem m s).enter ops) k') := by
  rw [enter_setMem]
  exact withRa_setMem fun ra ha => hk ra (by simpa using ha)

theorem enterRaRb_setMem {k k' : RegIndex → RegIndex → Result}
    (hk : ∀ ra rb, Names (opbOf ops s) rb → SameNextButMem (k ra rb) (k' ra rb)) :
    SameNextButMem (withRaRb fpc (s.enter ops) k) (withRaRb fpc ((setMem m s).enter ops) k') := by
  refine enterRa_setMem fun ra _ => ?_
  rw [enter_setMem, opb_setMem]
  cases legal : registerOf (s.enter ops).opb with
  | none => exact ⟨_, m, rfl, rfl⟩
  | some rb => exact hk ra rb (by simpa using registerOf_eq_some.mp legal)

/-- An instruction does the same, memory apart, in any memory that agrees at the address its handler reads. -/
theorem exec_setMem {i : Instr} (reads : ∀ a, loadAddress i s = some a → m.read a.toNat = s.memRead a) :
    SameNextButMem (exec i s) (exec i (setMem m s)) := by
  cases i with
  | nop ops | int ops | iret ops => exact ⟨_, m, rfl, congrArg _ (enter_setMem m s ops)⟩
  | hlt ops =>
    rw [exec, exec, execHlt, execHlt, enter_setMem]
    exact ⟨_, m, rfl, rfl⟩
  | ret ops =>
    have read : m.read s.sp.toNat = s.memRead s.sp := reads s.sp rfl
    rw [exec, exec, execRet_pops, execRet_pops, latch_setMem, sp_setMem, memRead_setMem, read]
    exact ⟨_, m, rfl, rfl⟩
  | ld ops =>
    refine enterRaRb_setMem fun ra rb hb => ?_
    have read := reads (s.readReg rb) (namedValue_of_names hb)
    rw [enter_setMem, readReg_setMem, memRead_setMem, enter_readReg, enter_memRead, read]
    exact ⟨_, m, rfl, rfl⟩
  | pra ops =>
    refine enterRa_setMem fun ra ha => ?_
    have read := reads (s.readReg ra) (namedValue_of_names ha)
    rw [enter_setMem, readReg_setMem, memRead_setMem, enter_readReg, enter_memRead, read]
    exact ⟨_, m, rfl, rfl⟩
  | pop ops =>
    refine enterRa_setMem fun ra _ => ?_
    have read : m.read s.sp.toNat = s.memRead s.sp := reads s.sp rfl
    dsimp only
    rw [enter_setMem, sp_setMem, memRead_setMem, enter_sp, enter_memRead, read]
    exact ⟨_, m, rfl, rfl⟩
  | push ops =>
    refine enterRa_setMem fun ra _ => ?_
    rw [enter_setMem, stackCheck_setMem]
    cases (s.enter ops).stackCheck with
    | none => exact ⟨_, m, rfl, rfl⟩
    | some nsp => exact ⟨_, _, rfl, rfl⟩
  | call ops =>
    refine latchRa_setMem fun ra => ?_
    rw [latch_setMem]
    dsimp only
    rw [stackCheck_setMem]
    cases (s.latch ops).stackCheck with
    | none => exact ⟨_, m, rfl, rfl⟩
    | some nsp => exact ⟨_, _, rfl, rfl⟩
  | ldi ops | prn ops | inc ops | dec ops | not ops =>
    refine enterRa_setMem fun ra _ => ?_
    rw [enter_setMem]
    exact ⟨_, m, rfl, rfl⟩
  | jmp ops | jeq ops | jne ops | jgt ops | jlt ops | jle ops | jge ops =>
    refine latchRa_setMem fun ra => ?_
    rw [latch_setMem]
    exact ⟨_, m, rfl, rfl⟩
  | st ops | cmp ops | add ops | sub ops | mul ops | and ops | or ops | xor ops | shl ops | shr ops =>
    refine enterRaRb_setMem fun ra rb _ => ?_
    rw [enter_setMem]
    exact ⟨_, _, rfl, rfl⟩
  | div ops | mod ops =>
    refine enterRaRb_setMem fun ra rb _ => ?_
    rw [enter_setMem, readReg_setMem]
    split
    · exact ⟨_, m, rfl, rfl⟩
    · exact ⟨_, m, rfl, rfl⟩

end TwoMemories

/-- Settles O44: two runs of an instruction in memories that agree where its handler reads. -/
theorem memoryRead : Obligations.MemoryRead := by
  intro i s t m h reads
  obtain ⟨t', m', ht, hu⟩ := exec_setMem reads
  cases h.symm.trans ht
  exact ⟨setMem m' t, hu, rfl⟩

end Sys2Proof.Proofs

/-! SUPPORT. The encoding: what the decoder reads from bytes and from an opcode byte alone, and the register check it feeds. -/

namespace Sys2Proof.Proofs

open Sys2Proof.Machine Sys2Proof.Claims

/-! ### The opcode byte alone (R48, R50, R52) -/

/-- The count field is bits 7 to 6 of the byte (R48). -/
theorem countField_eq_div (b : Byte) : countField b = b.toNat / 64 := by
  have := b.isLt
  simp only [countField, BitVec.extractLsb'_toNat, Nat.shiftRight_eq_div_pow]
  omega

/-- Everything an opcode byte with a handler says: its count field, which is not 3, and the handler of its triple. -/
theorem decodeOpcode_ok {b : Byte} {n : Nat} {handler : List Byte → Instr} (h : decodeOpcode b = .ok (n, handler)) :
    n = countField b ∧ n ≤ 2 ∧ dispatch (aluFlag b) (manualPcFlag b) (indexField b) = some handler := by
  have count := countField_eq_div b
  have := b.isLt
  unfold decodeOpcode at h
  split at h
  · cases h
  · next notThree =>
    split at h
    · cases h
    · next found => cases h; exact ⟨rfl, by omega, found⟩

/-- An opcode byte is refused for its count field (R50) or for its triple (R52), and for nothing else. -/
theorem decodeOpcode_error_iff (b : Byte) : (∃ why, decodeOpcode b = .error why) ↔
    countField b = 3 ∨ (dispatch (aluFlag b) (manualPcFlag b) (indexField b)).isNone = true := by
  unfold decodeOpcode
  split
  · next three => simp [three]
  · next notThree => cases dispatch (aluFlag b) (manualPcFlag b) (indexField b) <;> simp [notThree]

/-- The handler of an opcode byte, given as many operand bytes as the byte counts, builds the instruction that this byte
and these operand bytes encode. -/
theorem encode_handler {b : Byte} {n : Nat} {handler : List Byte → Instr} (h : decodeOpcode b = .ok (n, handler))
    {ops : List Byte} (len : ops.length = n) : (handler ops).operands = ops ∧ encode (handler ops) = b :: ops := by
  obtain ⟨count, -, found⟩ := decodeOpcode_ok h
  obtain ⟨alu, manual, index, operands⟩ := dispatch_row found ops
  have byte := opcodeByte_of_fields b (handler ops).row.count
  rw [← count, ← len, ← alu, ← manual, ← index] at byte
  exact ⟨operands, by rw [encode, operands, byte]⟩

/-! ### The decoder (R47, R59) -/

/-- The opcode byte's handler takes the operand bytes, and what follows them is left over. -/
theorem decode_append {b : Byte} {handler : List Byte → Instr} {ops : List Byte}
    (h : decodeOpcode b = .ok (ops.length, handler)) (rest : List Byte) :
    decode (b :: (ops ++ rest)) = .ok (handler ops, rest) := by
  have enough : ¬ (ops ++ rest).length < ops.length := by simp
  simp only [decode, h, if_neg enough, List.take_left, List.drop_left]

/-- Everything the decoder can read: an opcode byte with a handler, its operand bytes, and the bytes left over. -/
theorem decode_cases {bytes rest : List Byte} {i : Instr} (h : decode bytes = .ok (i, rest)) :
    ∃ b ops handler, bytes = b :: (ops ++ rest) ∧ decodeOpcode b = .ok (ops.length, handler) ∧ i = handler ops := by
  cases bytes with
  | nil => cases h
  | cons b more =>
    rw [decode] at h
    split at h
    · cases h
    · next n handler found =>
      split at h
      · cases h
      · next enough =>
        cases h
        have len : (more.take n).length = n := List.length_take_of_le (by omega)
        exact ⟨b, more.take n, handler, by rw [List.take_append_drop], by rw [len, found], rfl⟩

/-- Settles O2: the encoded opcode byte selects the handler that rebuilds the instruction from its operand bytes. -/
theorem decodeOfEncode : Obligations.DecodeOfEncode := by
  intro i rest wf
  obtain ⟨handler, found, rebuilds⟩ := decodeOpcode_encoded i wf
  exact (decode_append found rest).trans (by rw [rebuilds])

/-- Settles O3: what the decoder reads is an opcode byte and the operand bytes it counts, which encode again to the same. -/
theorem encodeOfDecode : Obligations.EncodeOfDecode := by
  intro bytes i rest h
  obtain ⟨b, ops, handler, rfl, found, rfl⟩ := decode_cases h
  obtain ⟨operands, encoded⟩ := encode_handler found rfl
  obtain ⟨count, short, -⟩ := decodeOpcode_ok found
  refine ⟨by simpa [Instr.wf, operands] using short, by rw [encoded, List.cons_append], b, ops ++ rest, rfl, ?_⟩
  rw [encoded, List.length_cons, count, countField_eq_div]

/-! ### The register check (R54, R73) -/

theorem handlerStart_eq (manualPc : Bool) (ops : List Byte) (s : State) :
    handlerStart manualPc ops s = if manualPc then latched ops s else advanced ops s := by
  have fetch : s.latch ops = latched ops s := by rw [latch_eq, latch_opa, latch_opb, latched]
  rw [handlerStart, State.enter, fetch, nextPc_eq]
  rfl

/-- An instruction whose format names OPA or OPB as a register runs its handler behind the check of that latch. -/
theorem exec_illegalRegister {i : Instr} {s : State}
    (h : (namesRa i = true ∧ NamesNone (opaOf i.operands s)) ∨ (namesRb i = true ∧ NamesNone (opbOf i.operands s))) :
    exec i s = .next ((handlerStart i.row.manualPc i.operands s).raise .illegalRegister s.pc) := by
  rw [← latch_opa, ← latch_opb] at h
  cases i with
  | nop ops | hlt ops | ret ops | int ops | iret ops => simp [namesRa, namesRb] at h
  | ldi ops | push ops | pop ops | prn ops | pra ops | inc ops | dec ops | not ops
  | call ops | jmp ops | jeq ops | jne ops | jgt ops | jlt ops | jle ops | jge ops =>
    exact withRa_none (by simpa [namesRa, namesRb, Instr.operands] using h)
  | ld ops | st ops | add ops | sub ops | mul ops | div ops | mod ops | cmp ops | and ops | or ops | xor ops | shl ops
  | shr ops => exact withRaRb_none (by simpa [namesRa, namesRb, Instr.operands] using h)

/-- Settles O39: the check stands before every handler, and the raise leaves the state the handler would start from. -/
theorem illegalRegisterRaised : Obligations.IllegalRegisterRaised := by
  intro i s h
  rw [exec_illegalRegister h, handlerStart_eq, State.raise]

/-! ### The opcode map written out (R53, R57) -/

/-- Settles O1: one closed computation of the decoder per word. -/
theorem writtenWordsDecode : Obligations.WrittenWordsDecode := by
  unfold Obligations.WrittenWordsDecode
  and_intros
  all_goals decide

/-- The list of R57 has the bytes the decoder refuses, for their count or for their triple. -/
theorem illegalByte_iff : ∀ b : Byte, illegalByte b = true ↔
    countField b = 3 ∨ (dispatch (aluFlag b) (manualPcFlag b) (indexField b)).isNone = true := by decide

theorem canonicalByte_iff : ∀ b : Byte, canonicalByte b = true ↔ b.toNat ∈ canonicalBytes := by decide

/-- Settles O4: the decoder's two reasons to refuse a byte are R57's list, and the counts compute. -/
theorem opcodeByteClasses : Obligations.OpcodeByteClasses :=
  ⟨fun b => (illegalByte_iff b).trans (decodeOpcode_error_iff b).symm, canonicalByte_iff, rfl, rfl, rfl⟩

end Sys2Proof.Proofs

/-! SUPPORT. The execution loop: which instruction a step runs, and how the CORE comes to stop. -/

namespace Sys2Proof.Proofs

open Sys2Proof.Machine Sys2Proof.Claims

/-! ### Every instruction but HLT leaves the CORE as it ran, or in FAULT (R25, R63) -/

/-- Where the outcome is a next state, the run state is still that of s, or FAULT. -/
def Continues (s : State) (r : Result) : Prop := ∀ t, r = .next t → t.run = s.run ∨ t.run = .fault

section Continues
variable {s b : State} {fpc : Byte}

theorem continues_next (h : b.run = s.run) : Continues s (.next b) := by
  intro t e
  cases e
  exact .inl h

theorem continues_raise (c : Cause) : Continues s (.next (b.raise c fpc)) := by
  intro t e
  cases e
  exact .inr rfl

theorem withRa_continues {handler : RegIndex → Result} (h : ∀ ra, Continues s (handler ra)) :
    Continues s (withRa fpc b handler) := by
  intro t e
  obtain ⟨-, rfl⟩ | ⟨ra, -, e⟩ := withRa_cases e
  · exact .inr rfl
  · exact h ra t e

theorem withRaRb_continues {handler : RegIndex → RegIndex → Result} (h : ∀ ra rb, Continues s (handler ra rb)) :
    Continues s (withRaRb fpc b handler) := by
  intro t e
  obtain ⟨-, rfl⟩ | ⟨ra, rb, -, -, e⟩ := withRaRb_cases e
  · exact .inr rfl
  · exact h ra rb t e

/-- HLT alone sets the run state itself; the other handlers end in the state they started from, written in other fields,
or raise. -/
theorem exec_continues {i : Instr} (notHlt : ∀ ops, i ≠ .hlt ops) (s : State) : Continues s (exec i s) := by
  cases i with
  | hlt ops => exact absurd rfl (notHlt ops)
  | nop ops => exact continues_next (enter_run s ops)
  | ret ops | int ops | iret ops => exact continues_next (latch_run s ops)
  | jmp ops | jeq ops | jne ops | jgt ops | jlt ops | jle ops | jge ops =>
    exact withRa_continues fun _ => continues_next (latch_run s ops)
  | ldi ops | pop ops | prn ops | pra ops | inc ops | dec ops | not ops =>
    exact withRa_continues fun _ => continues_next (enter_run s ops)
  | ld ops | st ops | cmp ops | add ops | sub ops | mul ops | and ops | or ops | xor ops | shl ops | shr ops =>
    exact withRaRb_continues fun _ _ => continues_next (enter_run s ops)
  | push ops =>
    refine withRa_continues fun _ => ?_
    split
    · exact continues_raise _
    · exact continues_next (enter_run s ops)
  | call ops =>
    refine withRa_continues fun _ => ?_
    dsimp only
    split
    · exact continues_raise _
    · exact continues_next (latch_run s ops)
  | div ops | mod ops =>
    refine withRaRb_continues fun _ _ => ?_
    split
    · exact continues_raise _
    · exact continues_next (enter_run s ops)

end Continues

/-! ### The stop states (R63, R124, R125) -/

section Stop
variable {s t : State}

theorem exec_halted {i : Instr} (running : s.run = .running) (h : exec i s = .next t) (halted : t.run = .halted) :
    ∃ ops, i = .hlt ops := by
  by_contra notHlt
  obtain kept | faulted := exec_continues (not_exists.mp notHlt) s t h
  · exact absurd (halted.symm.trans (kept.trans running)) (by decide)
  · exact absurd (halted.symm.trans faulted) (by decide)

/-- A handler run from a RUNNING CORE enters FAULT by a raise only, which records the instruction's address. -/
theorem effect_fault {pc : Byte} {b : State} {manualPc : Bool} (h : Effect pc b manualPc t) (running : b.run = .running)
    (fault : t.run = .fault) : ∃ c, t.record = some ⟨c, pc⟩ := by
  cases h with
  | raised _ c => exact ⟨c, rfl⟩
  | halted => cases fault
  | _ => exact absurd (running.symm.trans fault) (by decide)

theorem step_stopped (stopped : s.stopped) (t : State) : step s ≠ .next t := by
  intro h
  obtain ⟨running, -⟩ := step_cases h
  simp [State.stopped, running] at stopped

theorem step_halted (h : step s = .next t) (halted : t.run = .halted) :
    ∃ ops rest, decode s.fetchBytes = .ok (.hlt ops, rest) := by
  obtain ⟨running, ⟨why, -, rfl⟩ | ⟨i, rest, hd, he⟩⟩ := step_cases h
  · cases halted
  · obtain ⟨ops, rfl⟩ := exec_halted (s := s.fetchOpcode) running he halted
    exact ⟨ops, rest, hd⟩

theorem step_fault (h : step s = .next t) (fault : t.run = .fault) : ∃ c, t.record = some ⟨c, s.pc⟩ := by
  obtain ⟨running, ⟨why, -, rfl⟩ | ⟨i, rest, -, he⟩⟩ := step_cases h
  · exact ⟨.unknownOpcode, rfl⟩
  · have effect := exec_effect he
    exact effect_fault effect (by simpa using running) fault

end Stop

/-- Settles O10: a step starts from RUNNING; among the handlers HLT's alone gives HALTED, and only a raise gives FAULT. -/
theorem stopStatesAreTerminal : Obligations.StopStatesAreTerminal :=
  ⟨fun _ => step_stopped, fun _ _ _ running hlt => ⟨_, step_decoded running hlt, rfl⟩, fun _ _ => step_halted,
    fun _ _ => step_fault, fun _ _ _ _ => rfl⟩

/-! ### The fetched instruction (R36, R64, R68) -/

section Fetch
variable {s : State}

/-- The opcode byte and its operand bytes are consecutive bytes of memory from pc on. -/
theorem fetchBytes_eq_bytesAt (s : State) :
    s.fetchBytes = s.bytesAt s.pc (operandCount (s.memRead s.pc) + 1) := rfl

theorem bytesAt_eq_of_memRead {a : Byte} {bytes : List Byte}
    (h : ∀ (k : Nat) (hk : k < bytes.length), s.memRead (a + BitVec.ofNat 8 k) = bytes[k]) :
    s.bytesAt a bytes.length = bytes :=
  List.ext_getElem (bytesAt_length s a _) fun k hk hk' => (bytesAt_getElem s a _ k hk).trans (h k hk')

theorem operandCount_encoded {i : Instr} (wf : i.wf = true) :
    operandCount (opcodeByte i.operands.length i.row) = i.operands.length := by
  obtain ⟨handler, found, -⟩ := decodeOpcode_encoded i wf
  rw [operandCount, found]

/-- Where an instruction's bytes stand at pc, the fetch reads these bytes and none after them. -/
theorem fetchBytes_eq_encode {i : Instr} (wf : i.wf = true)
    (h : ∀ (k : Nat) (hk : k < (encode i).length), s.memRead (s.pc + BitVec.ofNat 8 k) = (encode i)[k]) :
    s.fetchBytes = encode i := by
  have opcode : s.memRead s.pc = opcodeByte i.operands.length i.row := by simpa [encode] using h 0 (Nat.succ_pos _)
  rw [fetchBytes_eq_bytesAt, opcode, operandCount_encoded wf]
  exact bytesAt_eq_of_memRead h

end Fetch

/-- Settles O5: the fetch reads the instruction's encoding, which decodes to the instruction with no byte left over. -/
theorem stepRunsDecodedInstr : Obligations.StepRunsDecodedInstr := by
  intro i s running wf bytes
  have decoded : decode s.fetchBytes = .ok (i, []) := by
    rw [fetchBytes_eq_encode wf bytes, ← List.append_nil (encode i)]
    exact decodeOfEncode i [] wf
  exact step_decoded running decoded

end Sys2Proof.Proofs

/-! SUPPORT. The ALU: what a completed instruction writes, what a fault and a canonical encoding say for a whole format, and
the branches that read the flags of a compare. -/

namespace Sys2Proof.Proofs

open Sys2Proof.Machine Sys2Proof.Claims

/-! ### From the model's operations to the words of the statements -/

section Start
variable {ops : List Byte} {s : State} {ra rb : RegIndex}

theorem latch_eq_latched (ops : List Byte) (s : State) : s.latch ops = latched ops s := handlerStart_eq true ops s

theorem enter_eq_advanced (ops : List Byte) (s : State) : s.enter ops = advanced ops s := handlerStart_eq false ops s

theorem namesRa_of_names (h : Names (opaOf ops s) ra) : NamesRa ops s ra := by rwa [NamesRa, latch_opa]

theorem namesRb_of_names (h : Names (opbOf ops s) rb) : NamesRb ops s rb := by rwa [NamesRb, latch_opb]

/-! The same operand bytes name the same registers in the state an ALU instruction leaves, whatever it wrote. -/

theorem namesRa_writeReg_enter (h : NamesRa ops s ra) (r : RegIndex) (v : Byte) :
    NamesRa ops ((s.enter ops).writeReg r v) ra :=
  (congrArg BitVec.toNat (relatch_opa (t := (s.enter ops).writeReg r v) rfl)).trans h

theorem namesRb_writeReg_enter (h : NamesRb ops s rb) (r : RegIndex) (v : Byte) :
    NamesRb ops ((s.enter ops).writeReg r v) rb :=
  (congrArg BitVec.toNat (relatch_opb (t := (s.enter ops).writeReg r v) rfl)).trans h

end Start

section Formats
variable {i : Instr} {ops : List Byte} {s : State} {ra rb : RegIndex} {v : Byte}

/-! A format's handler completes: the exact next state, and from it what is written. -/

theorem aluBinary_next {f : Byte → Byte → Byte} (ha : Names (opaOf ops s) ra) (hb : Names (opbOf ops s) rb)
    (value : f (s.readReg ra) (s.readReg rb) = v) :
    aluBinary f ops s = .next { advanced ops s with x := s.x.set ra.val v } := by
  rw [aluBinary_names (namesRa_of_names ha) (namesRb_of_names hb), value, enter_eq_advanced]
  rfl

theorem aluUnary_next {f : Byte → Byte} (ha : Names (opaOf ops s) ra) (value : f (s.readReg ra) = v) :
    aluUnary f ops s = .next { advanced ops s with x := s.x.set ra.val v } := by
  rw [aluUnary_names (namesRa_of_names ha), value, enter_eq_advanced]
  rfl

theorem aluDivide_next {f : Byte → Byte → Byte} (ha : Names (opaOf ops s) ra) (hb : Names (opbOf ops s) rb)
    (nonzero : s.readReg rb ≠ 0) (value : f (s.readReg ra) (s.readReg rb) = v) :
    aluDivide f ops s = .next { advanced ops s with x := s.x.set ra.val v } := by
  rw [aluDivide_names (namesRa_of_names ha) (namesRb_of_names hb) nonzero, value, enter_eq_advanced]
  rfl

theorem writesReg_of_next (h : exec i s = .next { advanced ops s with x := s.x.set ra.val v }) : WritesReg i s ra v :=
  ⟨_, h, rfl⟩

/-! A fault of an instruction with manual-PC flag 0 is raised in the state the loop hands to the handler. -/

theorem raises_of_next {c : Cause} (h : exec i s = .next ((s.enter ops).raise c s.pc)) : Raises i s c := by
  rw [enter_eq_advanced] at h
  exact ⟨_, h, rfl⟩

theorem oneRegister_raises (loop : i.row.manualPc = false) (first : namesRa i = true)
    (bad : NamesNone (opaOf i.operands s)) : Raises i s .illegalRegister := by
  have h := exec_illegalRegister (.inl ⟨first, bad⟩)
  rw [loop] at h
  exact raises_of_next h

theorem twoRegisters_raise (loop : i.row.manualPc = false) (first : namesRa i = true) (second : namesRb i = true)
    (bad : NamesNone (opaOf i.operands s) ∨ NamesNone (opbOf i.operands s)) : Raises i s .illegalRegister := by
  have h := exec_illegalRegister (bad.imp (⟨first, ·⟩) (⟨second, ·⟩))
  rw [loop] at h
  exact raises_of_next h

theorem divisor_zero_raises {f : Byte → Byte → Byte} (meaning : exec i s = aluDivide f ops s)
    (ha : Names (opaOf ops s) ra) (hb : Names (opbOf ops s) rb) (zero : s.readReg rb = 0) : Raises i s .divisionByZero :=
  raises_of_next (meaning.trans (aluDivide_zero (namesRa_of_names ha) (namesRb_of_names hb) zero))

end Formats

/-! An opcode byte's count and handler give the canonical encoding of its format (R47, R48). -/

section Encodings
variable {opcode : Byte} {handler : List Byte → Instr}

theorem oneOperand_of_decodeOpcode (h : decodeOpcode opcode = .ok (1, handler)) : OneOperand handler opcode :=
  fun a => ⟨(encode_handler h (ops := [a]) rfl).2, decode_append (ops := [a]) h []⟩

theorem twoOperands_of_decodeOpcode (h : decodeOpcode opcode = .ok (2, handler)) : TwoOperands handler opcode :=
  fun a b => ⟨(encode_handler h (ops := [a, b]) rfl).2, decode_append (ops := [a, b]) h []⟩

end Encodings

/-! ### What the operations compute (R74 to R89) -/

section Values
variable (a b : Byte)

theorem notByte_eq : notByte a = BitVec.ofNat 8 (255 - a.toNat) := by
  have := a.isLt
  have : (255 - (a.toNat : Int)) = ((255 - a.toNat : Nat) : Int) := by omega
  rw [notByte, this, wrap8_natCast]

theorem incByte_eq : incByte a = BitVec.ofNat 8 (a.toNat + 1) := wrap8_natCast (a.toNat + 1)

/-- Subtracting 1 is adding 255, modulo 256 (R87). -/
theorem decByte_eq : decByte a = BitVec.ofNat 8 (a.toNat + 255) := by
  apply BitVec.eq_of_toNat_eq
  simp only [decByte, wrap8, BitVec.toNat_ofInt, BitVec.toNat_ofNat]
  omega

theorem subBytes_addBytes : subBytes (addBytes a b) b = a := by
  have := a.isLt
  have := b.isLt
  apply BitVec.eq_of_toNat_eq
  rw [subBytes_eq, addBytes_eq, BitVec.toNat_ofNat, BitVec.toNat_ofNat]
  omega

theorem divBytes_toNat : (divBytes a b).toNat = a.toNat / b.toNat := by
  have : a.toNat / b.toNat < 2 ^ 8 := Nat.lt_of_le_of_lt (Nat.div_le_self _ _) a.isLt
  rw [divBytes_eq, BitVec.toNat_ofNat, Nat.mod_eq_of_lt this]

theorem modBytes_toNat : (modBytes a b).toNat = a.toNat % b.toNat := by
  have : a.toNat % b.toNat < 2 ^ 8 := Nat.lt_of_le_of_lt (Nat.mod_le _ _) a.isLt
  rw [modBytes_eq, BitVec.toNat_ofNat, Nat.mod_eq_of_lt this]

end Values

/-! ### The ALU's results -/

/-- Settles O12: the shared binary operation with the three values modulo 256. -/
theorem addSubMulModulo256 : Obligations.AddSubMulModulo256 := by
  refine ⟨fun ops s ra rb ha hb => ⟨?add, ?sub, ?mul⟩, fun ops s bad => ⟨?_, ?_, ?_⟩, ?_, ?_, ?_⟩
  case add => exact writesReg_of_next (aluBinary_next ha hb (addBytes_eq _ _))
  case sub => exact writesReg_of_next (aluBinary_next ha hb (subBytes_eq _ _))
  case mul => exact writesReg_of_next (aluBinary_next ha hb (mulBytes_eq _ _))
  iterate 3 exact twoRegisters_raise rfl rfl rfl bad
  iterate 3 exact twoOperands_of_decodeOpcode rfl

/-- Settles O13: the shared unary operation with the three values modulo 256. -/
theorem notIncDecResults : Obligations.NotIncDecResults := by
  refine ⟨fun ops s ra ha => ⟨?not, ?inc, ?dec⟩, fun ops s bad => ⟨?_, ?_, ?_⟩, ?_, ?_, ?_⟩
  case not => exact writesReg_of_next (aluUnary_next ha (notByte_eq _))
  case inc => exact writesReg_of_next (aluUnary_next ha (incByte_eq _))
  case dec => exact writesReg_of_next (aluUnary_next ha (decByte_eq _))
  iterate 3 exact oneRegister_raises rfl rfl bad
  iterate 3 exact oneOperand_of_decodeOpcode rfl

/-- Settles O14: the shared binary operation writes the word-wide and, or, exclusive or, whose bits are the library's. -/
theorem andOrXorBitwise : Obligations.AndOrXorBitwise := by
  refine ⟨fun ops s ra rb ha hb => ?results, fun ops s bad => ⟨?_, ?_, ?_⟩, ?_, ?_, ?_⟩
  case results =>
    exact ⟨_, _, _, writesReg_of_next (aluBinary_next ha hb rfl), writesReg_of_next (aluBinary_next ha hb rfl),
      writesReg_of_next (aluBinary_next ha hb rfl), fun k => ⟨BitVec.getLsbD_and, BitVec.getLsbD_or, BitVec.getLsbD_xor⟩⟩
  iterate 3 exact twoRegisters_raise rfl rfl rfl bad
  iterate 3 exact twoOperands_of_decodeOpcode rfl

/-- Settles O15: a divisor other than 0 completes with the library's quotient and remainder, 0 raises. -/
theorem divModResults : Obligations.DivModResults := by
  refine ⟨fun ops s ra rb ha hb => ⟨fun nonzero => ⟨?div, ?mod⟩, fun zero => ⟨?_, ?_⟩⟩, fun ops s bad => ⟨?_, ?_⟩, ?_, ?_⟩
  case div => exact writesReg_of_next (aluDivide_next ha hb nonzero (divBytes_eq _ _))
  case mod => exact writesReg_of_next (aluDivide_next ha hb nonzero (modBytes_eq _ _))
  iterate 2 exact divisor_zero_raises rfl ha hb zero
  iterate 2 exact twoRegisters_raise rfl rfl rfl bad
  iterate 2 exact twoOperands_of_decodeOpcode rfl

/-- Settles O16: the shared binary operation, with the power of two for every amount, and 0 by the guard from 8 on. -/
theorem shiftResults : Obligations.ShiftResults := fun _ _ _ _ ha hb =>
  ⟨aluBinary_next ha hb (shlBytes_eq _ _), aluBinary_next ha hb (shrBytes_eq _ _),
    fun big => ⟨aluBinary_next ha hb (if_pos big), aluBinary_next ha hb (if_pos big)⟩⟩

/-- Settles O18: the two results are the library's quotient and remainder, which satisfy the law. -/
theorem divModLaw : Obligations.DivModLaw := by
  intro ops s ra rb ha hb nonzero
  have positive : 0 < (s.readReg rb).toNat := Nat.pos_of_ne_zero fun e => nonzero (BitVec.eq_of_toNat_eq e)
  have first := namesRa_of_names ha
  have second := namesRb_of_names hb
  refine ⟨_, _, aluDivide_names first second nonzero, aluDivide_names first second nonzero, ?_, ?_⟩
  · rw [readReg_writeReg_same, readReg_writeReg_same, divBytes_toNat, modBytes_toNat, Nat.div_add_mod]
  · rw [readReg_writeReg_same, modBytes_toNat]
    exact Nat.mod_lt _ positive

/-- Settles O19: ADD leaves the second operand and the latches as SUB needs them, and SUB takes off what ADD put on. -/
theorem addThenSubRestores : Obligations.AddThenSubRestores := by
  intro ops s ra rb ha hb distinct
  have first := namesRa_of_names ha
  have second := namesRb_of_names hb
  refine ⟨_, _, aluBinary_names first second,
    aluBinary_names (namesRa_writeReg_enter first _ _) (namesRb_writeReg_enter second _ _), ?_⟩
  rw [readReg_writeReg_same, readReg_writeReg _ ra rb, if_neg distinct.symm, enter_readReg, subBytes_addBytes]
  rw [writeReg_x, enter_x, writeReg_x, enter_x, Vector.set_set]
  exact Vector.set_getElem_self _

/-! ### The compare and the branches after it (R88, R92) -/

section Compare
variable (a b : Byte)

/-- The compare's three one-bit parts are exclusive, so their union is one of them. -/
theorem compareFlags_eq :
    compareFlags a b = if a.toNat = b.toNat then 0x01 else if b.toNat < a.toNat then 0x02 else 0x04 := by
  unfold compareFlags
  rcases Nat.lt_trichotomy a.toNat b.toNat with less | equal | greater
  · simp [less, less.ne, less.not_gt]
  · simp [equal]
  · simp [greater, greater.ne', greater.not_gt]

/-- Each flag is set exactly when its relation holds (R88). -/
theorem flags_compareFlags :
    flagE (compareFlags a b) = decide (a.toNat = b.toNat) ∧ flagG (compareFlags a b) = decide (b.toNat < a.toNat) ∧
      flagL (compareFlags a b) = decide (a.toNat < b.toNat) := by
  rw [compareFlags_eq]
  rcases Nat.lt_trichotomy a.toNat b.toNat with less | equal | greater
  · simp [flagE, flagG, flagL, less, less.ne, less.not_gt]
  · simp [flagE, flagG, flagL, equal]
  · simp [flagE, flagG, flagL, greater, greater.ne', greater.not_gt]

theorem takenGt_compareFlags : takenGt (compareFlags a b) = decide (b.toNat < a.toNat) := (flags_compareFlags a b).2.1

theorem takenLt_compareFlags : takenLt (compareFlags a b) = decide (a.toNat < b.toNat) := (flags_compareFlags a b).2.2

theorem takenEq_compareFlags : takenEq (compareFlags a b) = (a == b) := by
  obtain ⟨e, -, -⟩ := flags_compareFlags a b
  rw [takenEq, e, beq_eq_decide]
  exact decide_eq_decide.mpr BitVec.toNat_inj

theorem takenNe_compareFlags : takenNe (compareFlags a b) = (a != b) := congrArg (!·) (takenEq_compareFlags a b)

theorem takenGe_compareFlags : takenGe (compareFlags a b) = decide (b.toNat ≤ a.toNat) := by
  obtain ⟨e, g, -⟩ := flags_compareFlags a b
  rw [takenGe, g, e, ← Bool.decide_or]
  exact decide_eq_decide.mpr (by omega)

theorem takenLe_compareFlags : takenLe (compareFlags a b) = decide (a.toNat ≤ b.toNat) := by
  obtain ⟨e, -, l⟩ := flags_compareFlags a b
  rw [takenLe, l, e, ← Bool.decide_or]
  exact decide_eq_decide.mpr (by omega)

end Compare

/-- Settles O17: the compare's flags as a chain of its three cases, in the state the loop hands to the handler. -/
theorem compareSetsOneFlag : Obligations.CompareSetsOneFlag := by
  intro ops s ra rb ha hb
  rw [exec, execCmp_names (namesRa_of_names ha) (namesRb_of_names hb), compareFlags_eq, enter_eq_advanced]

/-- A jump or branch goes by its condition on FL (R94). -/
theorem jumpsWhen_of_taken {i : Instr} {s : State} {ra : RegIndex} {taken : Byte → Bool} {c : Bool}
    (meaning : exec i s = jumpWhen taken i.operands s) (ha : Names (opaOf i.operands s) ra) (cond : taken s.fl = c) :
    JumpsWhen c i s ra := by
  rw [jumpWhen_names (namesRa_of_names ha), cond, nextPc_eq, latch_eq_latched] at meaning
  exact ⟨_, meaning, rfl⟩

/-- Settles O22: each branch goes by its condition on the compare's flags, which is the relation of its name. -/
theorem compareThenBranch : Obligations.CompareThenBranch := by
  intro ops ops' s ra rb ha hb
  refine ⟨_, execCmp_names (namesRa_of_names ha) (namesRb_of_names hb), enter_x s ops, fun rt ht => ?_⟩
  exact ⟨jumpsWhen_of_taken rfl ht (takenEq_compareFlags _ _), jumpsWhen_of_taken rfl ht (takenNe_compareFlags _ _),
    jumpsWhen_of_taken rfl ht (takenGt_compareFlags _ _), jumpsWhen_of_taken rfl ht (takenGe_compareFlags _ _),
    jumpsWhen_of_taken rfl ht (takenLt_compareFlags _ _), jumpsWhen_of_taken rfl ht (takenLe_compareFlags _ _)⟩

end Sys2Proof.Proofs

/-! SUPPORT. Control and stack: the jumps, CALL and RET, and the state a PUSH and a POP leave. -/

namespace Sys2Proof.Proofs

open Sys2Proof.Machine Sys2Proof.Claims

/-! ### Jumps and branches (R93 to R99) -/

theorem jumpRaises_of_manualPc {i : Instr} {s : State} (own : i.row.manualPc = true) (first : namesRa i = true)
    (bad : NamesNone (opaOf i.operands s)) : JumpRaises i s := by
  have h := exec_illegalRegister (.inl ⟨first, bad⟩)
  rw [own, handlerStart_eq] at h
  exact ⟨_, h, rfl⟩

/-- Settles O23: the seven run one jump, each with its own condition on FL, behind one register check. -/
theorem jumpsAndBranches : Obligations.JumpsAndBranches := by
  refine ⟨fun ops s ra ha => ⟨?jmp, ?jeq, ?jne, ?jgt, ?jge, ?jlt, ?jle⟩,
    fun ops s bad => ⟨?_, ?_, ?_, ?_, ?_, ?_, ?_⟩, ?_, ?_, ?_, ?_, ?_, ?_, ?_⟩
  case jmp => exact jumpsWhen_of_taken (taken := fun _ => true) rfl ha rfl
  case jeq => exact jumpsWhen_of_taken (taken := takenEq) rfl ha rfl
  case jne => exact jumpsWhen_of_taken (taken := takenNe) rfl ha rfl
  case jgt => exact jumpsWhen_of_taken (taken := takenGt) rfl ha rfl
  case jge => exact jumpsWhen_of_taken (taken := takenGe) rfl ha rfl
  case jlt => exact jumpsWhen_of_taken (taken := takenLt) rfl ha rfl
  case jle => exact jumpsWhen_of_taken (taken := takenLe) rfl ha rfl
  iterate 7 exact jumpRaises_of_manualPc rfl rfl bad
  iterate 7 exact oneOperand_of_decodeOpcode rfl

/-! ### CALL and RET (R102, R103) -/

/-- One store into a state that has the memory of before changes that byte alone. -/
theorem storesByte_of_memWrite {i : Instr} {s u : State} {a v : Byte} (h : exec i s = .next (u.memWrite a v))
    (before : u.mem = s.mem) : StoresByte i s u a v := by
  refine ⟨_, h, (memoryReadsLatestWrite u a a v).2, fun b => ?_⟩
  rw [(memoryReadsLatestWrite u a b v).1, State.memRead, before, State.memRead]

/-- Settles O24: CALL on both sides of the boundary, from the state with its operands fetched. -/
theorem callPushesReturnAddress : Obligations.CallPushesReturnAddress := by
  refine fun ops s ra ha => ⟨fun above => ?pushed, fun below => ?overflow⟩
  case pushed =>
    have h := execCall_calls (namesRa_of_names ha) above
    rw [nextPc_eq, latch_eq_latched] at h
    exact storesByte_of_memWrite h rfl
  case overflow =>
    have h := execCall_overflows (namesRa_of_names ha) below
    rwa [latch_eq_latched] at h

/-- Settles O25: RET has one path, and its increment is the word's own. -/
theorem retPopsPc : Obligations.RetPopsPc := by
  intro ops s
  rw [exec, execRet_pops, latch_eq_latched]
  rfl

/-- Settles O26: RET reads the byte CALL stored and adds what CALL took off SP. -/
theorem callThenRetReturns : Obligations.CallThenRetReturns := by
  intro ops ops' s ra ha above
  refine ⟨_, execCall_calls (namesRa_of_names ha) above, rfl, fun u sameSp sameByte => ?_⟩
  have lowered : u.readReg 7 = s.sp - 1 := sameSp.trans (setSp_sp _ _)
  refine ⟨_, execRet_pops, ?pc, ?sp⟩
  case pc =>
    calc u.memRead (u.readReg 7)
      _ = _ := sameByte
      _ = s.nextPc ops := by rw [← sameSp, lowered, setPc_memRead, memRead_memWrite_same]
      _ = afterInstr ops s := nextPc_eq s ops
  case sp =>
    calc (((u.latch ops').setSp (u.sp + 1)).setPc (u.memRead u.sp)).readReg 7
      _ = u.readReg 7 + 1 := setSp_sp _ _
      _ = s.readReg 7 := by rw [lowered]; exact BitVec.sub_add_cancel _ _

/-! ### PUSH and POP (R104, R105) -/

section Stack
variable {ops : List Byte} {s t : State} {ra : RegIndex}

/-- The state a PUSH above the boundary leaves. -/
def pushed (ops : List Byte) (ra : RegIndex) (s : State) : State :=
  ((s.enter ops).setSp (s.readReg 7 - 1)).memWrite (s.readReg 7 - 1) (if ra = 7 then s.readReg 7 - 1 else s.readReg ra)

theorem exec_push (ha : Names (opaOf ops s) ra) (above : s.hb.val + 1 < (s.readReg 7).toNat) :
    exec (.push ops) s = .next (pushed ops ra s) := by
  rw [exec, execPush_pushes (namesRa_of_names ha) above, readReg_setSp, enter_readReg]
  rfl

theorem exec_push_overflows (ha : Names (opaOf ops s) ra) (below : (s.readReg 7).toNat ≤ s.hb.val + 1) :
    exec (.push ops) s = .next ((s.enter ops).raise .stackOverflow s.pc) :=
  execPush_overflows (namesRa_of_names ha) below

@[simp] theorem pushed_run : (pushed ops ra s).run = s.run := enter_run s ops
@[simp] theorem pushed_hb : (pushed ops ra s).hb = s.hb := enter_hb s ops

@[simp] theorem pushed_readReg (r : RegIndex) :
    (pushed ops ra s).readReg r = if r = 7 then s.readReg 7 - 1 else s.readReg r := by
  rw [pushed, memWrite_readReg, readReg_setSp, enter_readReg]

/-- PUSH stores what its register holds afterwards, R7 too. -/
theorem pushed_memRead_top : (pushed ops ra s).memRead ((pushed ops ra s).readReg 7) = (pushed ops ra s).readReg ra := by
  rw [pushed_readReg, pushed_readReg, if_pos rfl, pushed, memRead_memWrite_same]

theorem pushed_sp_toNat (positive : 0 < (s.readReg 7).toNat) :
    ((pushed ops ra s).readReg 7).toNat + 1 = (s.readReg 7).toNat := by
  rw [pushed_readReg, if_pos rfl]
  bv_omega

/-- POP leaves in SP one above what SP holds once the register is written. -/
theorem exec_pop (ha : Names (opaOf ops s) ra) :
    exec (.pop ops) s = .next (((s.enter ops).writeReg ra (s.memRead (s.readReg 7))).setSp
      ((if ra = 7 then s.memRead (s.readReg 7) else s.readReg 7) + 1)) := by
  rw [exec, execPop_names (namesRa_of_names ha), sp_writeReg, enter_sp]
  rfl

theorem x_eq_of_readReg (h : ∀ r, t.readReg r = s.readReg r) : t.x = s.x :=
  Vector.ext fun i hi => h ⟨i, hi⟩

end Stack

/-- Settles O27: PUSH on both sides of the boundary, from the state with its operands fetched and pc advanced. -/
theorem pushStoresRegister : Obligations.PushStoresRegister := by
  refine fun ops s ra ha => ⟨fun above => ?pushed, fun below => ?overflow⟩
  case pushed =>
    have h := exec_push ha above
    rw [pushed, enter_eq_advanced] at h
    exact storesByte_of_memWrite h rfl
  case overflow =>
    have h := exec_push_overflows ha below
    rwa [enter_eq_advanced] at h

/-- Settles O28: POP increments the SP of after the register write, which for R7 is the popped byte. -/
theorem popLoadsRegister : Obligations.PopLoadsRegister := by
  refine fun ops s ra ha => ⟨fun other => ?other, fun isSp => ?isSp⟩
  case other =>
    rw [exec_pop ha, if_neg other, enter_eq_advanced]
    rfl
  case isSp =>
    subst isSp
    rw [exec_pop ha, if_pos rfl, enter_eq_advanced, State.setSp, State.writeReg, State.writeReg]
    simp only [Vector.set_set]
    rfl

/-- Settles O29: POP writes back what PUSH stored; for R7 that is the decremented SP, which the increment undoes. -/
theorem pushThenPopRestores : Obligations.PushThenPopRestores := by
  refine fun ops ops' s ra ha above => ⟨_, exec_push ha above, fun again => ⟨_, exec_pop again, ?_⟩⟩
  refine x_eq_of_readReg fun r => ?_
  rw [readReg_setSp, readReg_writeReg, enter_readReg, pushed_memRead_top]
  by_cases isSp : r = 7
  · subst isSp
    by_cases same : ra = 7
    · simp [same]
    · simp [same]
  · by_cases same : r = ra
    · subst same
      simp [isSp]
    · simp [isSp, same]

/-! ### Pushing up to the heap boundary (R100) -/

theorem pushTimes_succ {ops : List Byte} {s t : State} {k : Nat} (h : exec (.push ops) s = .next t)
    (running : t.run = .running) : pushTimes ops (k + 1) s = pushTimes ops k t := by
  simp [pushTimes, h, running]

/-- Settles O30, by induction on the number of pushes: each lowers SP by one and leaves HB, and SP - 1 = HB overflows. -/
theorem pushesUntilHeapBoundary : Obligations.PushesUntilHeapBoundary := by
  intro a s ra k ha running fits
  induction k generalizing s with
  | zero => exact ⟨s, rfl, running, rfl, fun full => raises_of_next (exec_push_overflows (ops := [a]) ha (by omega))⟩
  | succ k ih =>
    have push : exec (.push [a]) s = .next (pushed [a] ra s) := exec_push ha (by omega)
    have lower : ((pushed [a] ra s).readReg 7).toNat + 1 = (s.readReg 7).toNat := pushed_sp_toNat (by omega)
    obtain ⟨t, pushes, stillRunning, sp, full⟩ :=
      ih (pushed [a] ra s) (pushed_run.trans running) (by rw [pushed_hb]; omega)
    rw [pushed_hb] at full
    exact ⟨t, (pushTimes_succ push (pushed_run.trans running)).trans pushes, stillRunning, by omega,
      fun last => full (by omega)⟩

end Sys2Proof.Proofs

/-! SUPPORT. Data, output and system: the load, store and print handlers, the decimal digits PRN appends, and the
instructions that only advance pc or halt. -/

namespace Sys2Proof.Proofs

open Sys2Proof.Machine Sys2Proof.Claims

/-! ### Load and store (R107 to R109) -/

/-- A register write after the loop's part, in the words of the statements. -/
theorem writeReg_enter (ops : List Byte) (s : State) (r : RegIndex) (v : Byte) :
    (s.enter ops).writeReg r v = { advanced ops s with x := s.x.set r.val v } := by
  rw [enter_eq_advanced]
  rfl

/-- Settles O31: LDI writes the second latch, which no check reads; the first latch has the check of its format. -/
theorem loadImmediate : Obligations.LoadImmediate := by
  refine ⟨fun ops s ra ha => ?_, fun ops s bad => oneRegister_raises rfl rfl bad, twoOperands_of_decodeOpcode rfl⟩
  have h : exec (.ldi ops) s = _ := execLdi_names (namesRa_of_names ha)
  rw [writeReg_enter, latch_opb] at h
  exact writesReg_of_next h

/-- Settles O32: LD is one register write and ST one memory write, in the state the loop hands to the handler. -/
theorem loadAndStore : Obligations.LoadAndStore := by
  refine fun ops s ra rb ha hb => ⟨?load, ?store⟩
  case load => rw [exec, execLd_names (namesRa_of_names ha) (namesRb_of_names hb), writeReg_enter]
  case store =>
    have h : exec (.st ops) s = _ := execSt_names (namesRa_of_names ha) (namesRb_of_names hb)
    rw [enter_eq_advanced] at h
    exact storesByte_of_memWrite h rfl

/-! ### The decimal digits (R110) -/

/-- The library's decimal digits of a number, as character codes. -/
def asciiDigits (n : Nat) : List Byte := (Nat.toDigits 10 n).map fun c => BitVec.ofNat 8 c.toNat

theorem digitByte_eq_digitChar {d : Nat} (h : d < 10) : digitByte d = BitVec.ofNat 8 d.digitChar.toNat := by
  rw [Nat.toNat_digitChar_of_lt_ten h]
  rfl

theorem asciiDigits_of_lt_ten {n : Nat} (h : n < 10) : asciiDigits n = [digitByte n] := by
  rw [asciiDigits, Nat.toDigits_of_lt_base h, digitByte_eq_digitChar h]
  rfl

/-- From 10 on, the last digit stands after the digits of the tenth part. -/
theorem asciiDigits_of_ten_le {n : Nat} (h : 10 ≤ n) : asciiDigits n = asciiDigits (n / 10) ++ [digitByte (n % 10)] := by
  rw [← asciiDigits_of_lt_ten (Nat.mod_lt n (by decide)), asciiDigits, asciiDigits, asciiDigits, ← List.map_append,
    Nat.toDigits_append_toDigits (by decide) (by omega) (Nat.mod_lt n (by decide)), Nat.div_add_mod]

/-- The model's three cases, one per number of digits, give the library's digits. -/
theorem decimalBytes_eq_asciiDigits (v : Byte) : decimalBytes v = asciiDigits v.toNat := by
  have := v.isLt
  unfold decimalBytes
  dsimp only
  split
  · next one => rw [asciiDigits_of_lt_ten one]
  · next two =>
    rw [asciiDigits_of_ten_le (by omega)]
    split
    · rw [asciiDigits_of_lt_ten (by omega)]
      rfl
    · rw [asciiDigits_of_ten_le (by omega), asciiDigits_of_lt_ten (by omega), Nat.div_div_eq_div_mul]
      rfl

/-! ### Print (R110 to R112) -/

/-- A print of one event changes the output stream alone, after the loop's part. -/
theorem print_next {i : Instr} {ops : List Byte} {s : State} {e : OutEvent} (h : exec i s = .next ((s.enter ops).emit e)) :
    ∃ t, exec i s = .next t ∧ t = { advanced ops s with output := s.output ++ [e] } ∧
      t.outputBytes = s.outputBytes ++ e.bytes := by
  rw [enter_eq_advanced] at h
  exact ⟨_, h, rfl, (outputBytes_append (s := s) rfl).trans (by rw [List.flatMap_singleton])⟩

/-- Settles O34: each print is one event, PRN's with the digits of the library, PRA's with the byte it read. -/
theorem printAppendsOutput : Obligations.PrintAppendsOutput := by
  refine fun ops s ra ha => ⟨?prn, ?pra⟩
  case prn =>
    have h := print_next (i := .prn ops) (execPrn_names (namesRa_of_names ha))
    rwa [OutEvent.bytes, decimalBytes_eq_asciiDigits] at h
  case pra => exact print_next (i := .pra ops) (execPra_names (namesRa_of_names ha))

/-! ### The system instructions (R113 to R116) -/

theorem next_enter_eq_advanced (ops : List Byte) (s : State) : (.next (s.enter ops) : Result) = .next (advanced ops s) :=
  congrArg _ (enter_eq_advanced ops s)

/-- A byte 0x00 at pc is a one-byte NOP, whatever follows it. -/
theorem step_nop {s : State} (running : s.run = .running) (zero : s.memRead s.pc = 0x00) :
    step s = .next { s with ir := 0x00, pc := s.pc + 1 } := by
  have bytes : ∀ (k : Nat) (hk : k < (encode (.nop [])).length),
      s.memRead (s.pc + BitVec.ofNat 8 k) = (encode (.nop []))[k] := by
    intro k hk
    obtain rfl : k = 0 := Nat.lt_one_iff.mp hk
    rw [BitVec.add_zero]
    exact zero
  rw [stepRunsDecodedInstr (.nop []) s running rfl bytes, zero]
  exact next_enter_eq_advanced [] { s with ir := 0x00 }

/-- Settles O36: NOP is the loop's part of a step; the opcode byte alone gives the count of each encoding. -/
theorem nopOnlyAdvances : Obligations.NopOnlyAdvances :=
  ⟨next_enter_eq_advanced, decode_append (ops := []) rfl [],
    fun a b => ⟨decode_append (ops := [a]) rfl [], decode_append (ops := [a, b]) rfl []⟩,
    fun s running zeros => step_nop running (zeros s.pc)⟩

/-- Settles O37: HLT sets the run state of the state the loop hands to it. -/
theorem hltHalts : Obligations.HltHalts := by
  intro ops s
  rw [exec, execHlt, enter_eq_advanced]

/-- Settles O38: INT and IRET fetch and advance by themselves, as the loop does for the others. -/
theorem intIretOnlyAdvance : Obligations.IntIretOnlyAdvance :=
  fun ops s => ⟨next_enter_eq_advanced ops s, next_enter_eq_advanced ops s⟩

end Sys2Proof.Proofs

/-! SUPPORT. Faults: which byte and which instruction raises which cause, the state fault entry leaves, and what the host
reads of it. -/

namespace Sys2Proof.Proofs

open Sys2Proof.Machine Sys2Proof.Claims

/-! ### The bytes that raise UnknownOpcode (R57, R119) -/

/-- The fetched bytes fail to decode for the opcode byte alone: the fetch reads as many operand bytes as it counts. -/
theorem decode_fetchBytes_error_iff (s : State) :
    (∃ why, decode s.fetchBytes = .error why) ↔ illegalByte (s.memRead s.pc) = true := by
  rw [illegalByte_iff, ← decodeOpcode_error_iff, State.fetchBytes, operandCount]
  cases found : decodeOpcode (s.memRead s.pc) with
  | error why => simp [decode, found]
  | ok p =>
    obtain ⟨n, handler⟩ := p
    have read := decode_append (ops := s.bytesAt (s.pc + 1) n) (by rwa [bytesAt_length]) []
    rw [List.append_nil] at read
    refine ⟨fun ⟨why, bad⟩ => ?_, nofun⟩
    cases read.symm.trans bad

/-! ### The steps that enter FAULT (R124) -/

section Entry
variable {s t : State}

/-- A handler run from a RUNNING CORE enters FAULT by a raise only, never for UnknownOpcode, and has written nothing. -/
theorem effect_raised {pc : Byte} {b : State} {manualPc : Bool} (h : Effect pc b manualPc t) (running : b.run = .running)
    (fault : t.run = .fault) : ∃ c, c ≠ .unknownOpcode ∧ t = b.raise c pc := by
  cases h with
  | raised _ c own => exact ⟨c, own, rfl⟩
  | halted => cases fault
  | _ => exact absurd (running.symm.trans fault) (by decide)

/-- Every way into FAULT: the bytes do not decode, or the decoded instruction raises before it writes. -/
theorem step_fault_cases (h : step s = .next t) (fault : t.run = .fault) :
    (∃ why, decode s.fetchBytes = .error why ∧ t = s.fetchOpcode.raise .unknownOpcode s.pc) ∨
    ∃ i rest c, decode s.fetchBytes = .ok (i, rest) ∧ c ≠ .unknownOpcode ∧
      t = (handlerStart i.row.manualPc i.operands s.fetchOpcode).raise c s.pc := by
  obtain ⟨running, unknown | ⟨i, rest, hd, he⟩⟩ := step_cases h
  · exact .inl unknown
  · obtain ⟨c, own, e⟩ := effect_raised (exec_effect he) (by simpa using running) fault
    exact .inr ⟨i, rest, c, hd, own, e⟩

end Entry

/-- Settles O6: the bytes at pc decode unless the opcode byte is illegal, and no handler raises UnknownOpcode. -/
theorem unknownOpcodeStops : Obligations.UnknownOpcodeStops := by
  refine ⟨fun s running illegal => ?_, fun s t legal h fault p record => ?_, rfl⟩
  · obtain ⟨why, bad⟩ := (decode_fetchBytes_error_iff s).mpr illegal
    exact step_unknown running bad
  · obtain ⟨why, bad, -⟩ | ⟨i, rest, c, -, own, rfl⟩ := step_fault_cases h fault
    · have illegal := (decode_fetchBytes_error_iff s).mp ⟨why, bad⟩
      exact absurd (legal.symm.trans illegal) (by decide)
    · cases record
      exact own rfl

/-- What the loop writes before the handler: the latches, and pc when the manual-PC flag is 0 (R68, R69). -/
theorem handlerStart_eq_update (manualPc : Bool) (ops : List Byte) (s : State) :
    handlerStart manualPc ops s = { s with opa := opaOf ops s, opb := opbOf ops s,
                                           pc := if manualPc then s.pc else afterInstr ops s } := by
  rw [handlerStart_eq]
  cases manualPc <;> rfl

/-- Settles O41: a step into FAULT leaves the fetch's or the loop's state, with the fault entered and nothing else. -/
theorem faultEntryIsPrecise : Obligations.FaultEntryIsPrecise := by
  intro s t h fault
  obtain ⟨why, bad, rfl⟩ | ⟨i, rest, c, ok, -, rfl⟩ := step_fault_cases h fault
  · refine ⟨⟨_, rfl⟩, fun _ _ => ⟨rfl, rfl, rfl⟩, fun i rest ok => ?_⟩
    cases bad.symm.trans ok
  · rw [handlerStart_eq_update]
    refine ⟨⟨c, rfl⟩, fun why bad => ?_, fun i' rest' ok' => ?_⟩
    · cases bad.symm.trans ok
    · cases ok.symm.trans ok'
      exact ⟨opaOf_congr _ rfl, opbOf_congr _ rfl, rfl⟩

/-! ### The cause each instruction raises (R118, R123) -/

/-- A byte the format names as a register names none (R54): the check that comes first. -/
abbrev FailsRegisterCheck (i : Instr) (s : State) : Prop :=
  (namesRa i = true ∧ NamesNone (opaOf i.operands s)) ∨ (namesRb i = true ∧ NamesNone (opbOf i.operands s))

/-- The cause the handler itself raises once the register bytes have passed (R121, R122). -/
def handlerCause (i : Instr) (s : State) : Option Cause :=
  match i with
  | .push _ | .call _ => if (s.readReg 7).toNat ≤ s.hb.val + 1 then some .stackOverflow else none
  | .div o | .mod o => if namedValue s (opbOf o s) = some 0 then some .divisionByZero else none
  | _ => none

section Causes
variable {i : Instr} {s b : State} {ops : List Byte} {c : Cause} {fpc : Byte}

theorem causeOf_eq (i : Instr) (s : State) :
    causeOf i s = if FailsRegisterCheck i s then some .illegalRegister else handlerCause i s := by
  have checks : ((namesRa i && decide (NamesNone (opaOf i.operands s))) ||
      (namesRb i && decide (NamesNone (opbOf i.operands s)))) = true ↔ FailsRegisterCheck i s := by
    simp [FailsRegisterCheck]
  exact if_congr checks rfl (by cases i <;> rfl)

/-- Past the register check, every byte the format names as a register names one. -/
theorem names_of_not_fails (legal : ¬ FailsRegisterCheck i s) :
    (namesRa i = true → ∃ ra, NamesRa i.operands s ra) ∧ (namesRb i = true → ∃ rb, NamesRb i.operands s rb) := by
  rw [FailsRegisterCheck, ← latch_opa, ← latch_opb, not_or] at legal
  obtain ⟨legalA, legalB⟩ := legal
  exact ⟨fun first => ⟨⟨_, Nat.lt_of_not_le fun bad => legalA ⟨first, bad⟩⟩, rfl⟩,
    fun second => ⟨⟨_, Nat.lt_of_not_le fun bad => legalB ⟨second, bad⟩⟩, rfl⟩⟩

theorem namedValue_opbOf {rb : RegIndex} (hb : NamesRb ops s rb) :
    namedValue s (opbOf ops s) = some (s.readReg rb) := namedValue_of_names (by rwa [← latch_opb])

/-- PUSH and CALL at the boundary and DIV and MOD by 0 raise in the state the handler starts from. -/
theorem exec_handlerCause (legal : ¬ FailsRegisterCheck i s) (cause : handlerCause i s = some c) :
    exec i s = .next ((handlerStart i.row.manualPc i.operands s).raise c s.pc) := by
  obtain ⟨namedA, namedB⟩ := names_of_not_fails legal
  cases i with
  | push ops =>
    obtain ⟨below, ⟨⟩⟩ := Option.ite_none_right_eq_some.mp cause
    obtain ⟨ra, ha⟩ := namedA rfl
    exact execPush_overflows ha below
  | call ops =>
    obtain ⟨below, ⟨⟩⟩ := Option.ite_none_right_eq_some.mp cause
    obtain ⟨ra, ha⟩ := namedA rfl
    exact execCall_overflows ha below
  | div ops | mod ops =>
    obtain ⟨zero, ⟨⟩⟩ := Option.ite_none_right_eq_some.mp cause
    obtain ⟨ra, ha⟩ := namedA rfl
    obtain ⟨rb, hb⟩ := namedB rfl
    exact aluDivide_zero ha hb (Option.some.inj ((namedValue_opbOf hb).symm.trans zero))
  | _ => cases cause

/-- An instruction with a cause enters FAULT in the state its handler starts from, whatever the cause. -/
theorem exec_raises (cause : causeOf i s = some c) :
    exec i s = .next ((handlerStart i.row.manualPc i.operands s).raise c s.pc) := by
  rw [causeOf_eq] at cause
  split at cause
  · next bad => cases cause; exact exec_illegalRegister bad
  · next legal => exact exec_handlerCause legal cause

/-- Where the outcome is a next state, the fault record is still that of s, and the CORE runs as it did or is HALTED. -/
def RaisesNothing (s : State) (r : Result) : Prop :=
  ∀ t, r = .next t → t.record = s.record ∧ (t.run = s.run ∨ t.run = .halted)

theorem raisesNothing_next {r : Result} (h : r = .next b) (record : b.record = s.record) (run : b.run = s.run) :
    RaisesNothing s r := by
  intro t e
  cases h.symm.trans e
  exact ⟨record, .inl run⟩

theorem withRa_raisesNothing {handler : RegIndex → Result} (named : ∃ ra, Names b.opa ra)
    (h : ∀ ra, RaisesNothing s (handler ra)) : RaisesNothing s (withRa fpc b handler) := by
  obtain ⟨ra, ha⟩ := named
  rw [withRa_names ha]
  exact h ra

theorem withRaRb_raisesNothing {handler : RegIndex → RegIndex → Result} (namedA : ∃ ra, Names b.opa ra)
    (namedB : ∃ rb, Names b.opb rb) (h : ∀ ra rb, RaisesNothing s (handler ra rb)) :
    RaisesNothing s (withRaRb fpc b handler) := by
  obtain ⟨ra, ha⟩ := namedA
  obtain ⟨rb, hb⟩ := namedB
  rw [withRaRb_names ha hb]
  exact h ra rb

/-- Past the register check, an instruction whose handler has no cause raises nothing. -/
theorem exec_handlerCause_none (legal : ¬ FailsRegisterCheck i s) (clear : handlerCause i s = none) :
    RaisesNothing s (exec i s) := by
  obtain ⟨namedA, namedB⟩ := names_of_not_fails legal
  cases i with
  | nop ops | int ops | iret ops => exact raisesNothing_next rfl (enter_record s ops) (enter_run s ops)
  | hlt ops => intro t e; cases e; exact ⟨enter_record s ops, .inr rfl⟩
  | ret ops => exact raisesNothing_next rfl (latch_record s ops) (latch_run s ops)
  | jmp ops | jeq ops | jne ops | jgt ops | jlt ops | jle ops | jge ops =>
    exact withRa_raisesNothing (namedA rfl) fun _ => raisesNothing_next rfl (latch_record s ops) (latch_run s ops)
  | ldi ops | pop ops | prn ops | pra ops | inc ops | dec ops | not ops =>
    exact withRa_raisesNothing (namedA rfl) fun _ => raisesNothing_next rfl (enter_record s ops) (enter_run s ops)
  | ld ops | st ops | cmp ops | add ops | sub ops | mul ops | and ops | or ops | xor ops | shl ops | shr ops =>
    exact withRaRb_raisesNothing (namedA rfl) (namedB rfl) fun _ _ =>
      raisesNothing_next rfl (enter_record s ops) (enter_run s ops)
  | push ops =>
    have above : s.hb.val + 1 < s.sp.toNat := Nat.lt_of_not_le fun below => nomatch (if_pos below).symm.trans clear
    obtain ⟨ra, ha⟩ := namedA rfl
    exact raisesNothing_next (execPush_pushes ha above) (enter_record s ops) (enter_run s ops)
  | call ops =>
    have above : s.hb.val + 1 < s.sp.toNat := Nat.lt_of_not_le fun below => nomatch (if_pos below).symm.trans clear
    obtain ⟨ra, ha⟩ := namedA rfl
    exact raisesNothing_next (execCall_calls ha above) (latch_record s ops) (latch_run s ops)
  | div ops | mod ops =>
    obtain ⟨ra, ha⟩ := namedA rfl
    obtain ⟨rb, hb⟩ := namedB rfl
    have nonzero : s.readReg rb ≠ 0 := fun zero =>
      nomatch (if_pos ((namedValue_opbOf hb).trans (congrArg some zero))).symm.trans clear
    exact raisesNothing_next (aluDivide_names ha hb nonzero) (enter_record s ops) (enter_run s ops)

/-- An instruction without a cause passes every check on its way. -/
theorem exec_raisesNothing (clear : causeOf i s = none) : RaisesNothing s (exec i s) := by
  rw [causeOf_eq] at clear
  split at clear
  · cases clear
  · next legal => exact exec_handlerCause_none legal clear

end Causes

/-- Settles O40: the register check first, then the handler's own cause; without either the instruction completes. -/
theorem causesAndPriority : Obligations.CausesAndPriority := by
  refine ⟨fun i s t c cause h => ?_, fun i s t none h => exec_raisesNothing none t h, rfl, rfl, rfl, rfl⟩
  cases (exec_raises cause).symm.trans h
  exact ⟨rfl, rfl⟩

/-! ### What the host reads (R128) -/

theorem status_eq (s : State) : s.status = ⟨s.run, if s.run = .fault then s.record else none⟩ := by
  cases run : s.run <;> simp [State.status, run]

theorem stoppedView_eq (s : State) :
    s.stoppedView = if s.run = .running then none else some ⟨s.x, s.pc, s.fl, s.mem⟩ := by
  cases run : s.run <;> simp [State.stoppedView, run]

/-- Settles O49: the status and the stopped view by the run state, and the record a step into FAULT leaves. -/
theorem hostObserves : Obligations.HostObserves := by
  refine ⟨fun s => ?_, stoppedView_eq, fun s t h fault => ?_⟩
  · rw [status_eq]
    exact ⟨rfl, rfl⟩
  · obtain ⟨c, record⟩ := step_fault h fault
    exact ⟨c, by rw [status_eq, fault, record, if_pos rfl]⟩

end Sys2Proof.Proofs

/-! SUPPORT. The next step: when there is one, and which byte the first one after reset fetches. -/

namespace Sys2Proof.Proofs

open Sys2Proof.Machine

/-- Settles O11: decoding either fails, which raises, or gives an instruction, and each has a meaning; a stopped CORE
takes no step. -/
theorem runningCoreSteps : Obligations.RunningCoreSteps := by
  refine fun s => ⟨step_total, fun ⟨t, h⟩ => ?_⟩
  obtain ⟨running, -⟩ := step_cases h
  exact running

/-! ### The state the reset input leaves (R132, R133) -/

section Reset
variable (s : State) (ir opa opb : Byte)

@[simp] theorem resetCore_run : (s.resetCore ir opa opb).run = .running := rfl
@[simp] theorem resetCore_pc : (s.resetCore ir opa opb).pc = 0x00 := rfl
@[simp] theorem resetCore_memRead (a : Byte) : (s.resetCore ir opa opb).memRead a = s.memRead a := rfl

end Reset

/-- Settles O47: a reset CORE is RUNNING, so it steps, and a step puts the byte at pc in IR; reset keeps that byte. -/
theorem firstFetchAfterReset : Obligations.FirstFetchAfterReset := by
  intro s ir opa opb
  obtain ⟨t, h⟩ := step_total (resetCore_run s ir opa opb)
  refine ⟨resetCore_run s ir opa opb, resetCore_pc s ir opa opb, t, h, ?_⟩
  rw [step_ir h, resetCore_pc, resetCore_memRead]

end Sys2Proof.Proofs
